-- ==== Sys2Proof/Word.lean ====
section
/-! DEFINITION. Word.lean: the widths of the values the block moves (R8, 00_scope.md; R31, 20_memory.md; R49 and R56,
30_encoding.md). Every value is unsigned; bit 0 is the least significant (R10). -/

namespace Sys2Proof

/-- A Byte, 8 bits (R8); also one entry of a forward table (`EW` = 8, R15). -/
abbrev Byte := BitVec 8

/-- A Nibble, 4 bits (R8); also one entry of `IS` (R16) and an index into a 16-entry space (R31). -/
abbrev Nibble := BitVec 4

/-- A bit position of a Byte, 3 bits; also one entry of `IP` (R17) and an index into an 8-entry table (R31). -/
abbrev BitPos := BitVec 3

/-- A command word, 16 bits (`CW_W`, R49). -/
abbrev CmdWord := BitVec 16

/-- A response word, 12 bits (`RSP_W`, R56). -/
abbrev RspWord := BitVec 12

end Sys2Proof
end

