-- ==== Sys2Proof/Syntax.lean ====
section
/-! DEFINITION. Syntax.lean: the thirteen commands (R52, 30_encoding.md), one constructor per row of the opcode table,
with the operands of their formats (R50, R51). -/

namespace Sys2Proof

/-- A command. Operands have the width of the field they come from (R51), so the must-be-zero fields of a format
cannot be written down; the one bound that a width does not give, `RDST`'s index, is checked by `Instr.WellFormed`. -/
inductive Instr where
  /-- `SUBF b`, opcode 0x1, format B: substitute forward (R65). -/
  | subf (b : Byte)
  /-- `SUBI b`, opcode 0x2, format B: substitute inverse (R66). -/
  | subi (b : Byte)
  /-- `PRMF b`, opcode 0x3, format B: permute forward (R72). -/
  | prmf (b : Byte)
  /-- `PRMI b`, opcode 0x4, format B: permute inverse (R73). -/
  | prmi (b : Byte)
  /-- `WRS i, v`, opcode 0x5, format W16: write one entry of `S` (R88). -/
  | wrs (i : Nibble) (v : Byte)
  /-- `WRP i, v`, opcode 0x6, format W8: write one entry of `P` (R89). -/
  | wrp (i : BitPos) (v : Byte)
  /-- `INIS`, opcode 0x7, format N: validate `S`, derive `IS` (R82). -/
  | inis
  /-- `INIP`, opcode 0x8, format N: validate `P`, derive `IP` (R84). -/
  | inip
  /-- `RDS i`, opcode 0x9, format R16: read one entry of `S` (R91). -/
  | rds (i : Nibble)
  /-- `RDIS i`, opcode 0xA, format R16: read one entry of `IS` (R92). -/
  | rdis (i : Nibble)
  /-- `RDP i`, opcode 0xB, format R8: read one entry of `P` (R93). -/
  | rdp (i : BitPos)
  /-- `RDIP i`, opcode 0xC, format R8: read one entry of `IP` (R94). -/
  | rdip (i : BitPos)
  /-- `RDST r`, opcode 0xD, format R16 with `r` in 0..4: read one status register (R96). -/
  | rdst (r : Nibble)
  deriving DecidableEq, Repr

end Sys2Proof
end

