-- ==== Sys2Proof/WellFormed.lean ====
section
/-! DEFINITION. WellFormed.lean: which terms of `Instr` are commands of the table (R53, 30_encoding.md). -/

namespace Sys2Proof

/-- The status registers are those of index 0 to 4 (R23, R96); indices 5 to 15 are reserved (R59). -/
def statusIndexOk (r : Nibble) : Bool := r.toNat ≤ 4

/-- A term is a command exactly when its index names an entry that exists (R36). Only `RDST` has an operand wider
than its range; every other operand fills the bits the table gives it. -/
def Instr.WellFormed : Instr → Bool
  | .subf _ => true
  | .subi _ => true
  | .prmf _ => true
  | .prmi _ => true
  | .wrs _ _ => true
  | .wrp _ _ => true
  | .inis => true
  | .inip => true
  | .rds _ => true
  | .rdis _ => true
  | .rdp _ => true
  | .rdip _ => true
  | .rdst r => statusIndexOk r

end Sys2Proof
end

