-- ==== Sys2Proof/Decode.lean ====
section
/-! DEFINITION. Decode.lean: from a command word to a command or a named rejection (R49 to R54, R59, 30_encoding.md), and
the encoder (R62). The decoder looks at the word alone, never at the state (R54). -/

namespace Sys2Proof

/-- Why a word is reserved (R59). Every one of them is answered `ILLEGAL_CMD`. -/
inductive Reserved where
  /-- `OP` is 0x0, 0xE or 0xF. -/
  | opcode
  /-- `IDX` is not 0 in format B or N. -/
  | idxNotZero
  /-- `IDX[3]` is not 0 in format W8 or R8. -/
  | idxBit3NotZero
  /-- `DATA` is not 0 in format N, R16 or R8. -/
  | dataNotZero
  /-- `RDST` with `IDX` in 5..15. -/
  | statusIndex
  deriving DecidableEq, Repr

/-- "every 16-bit word is either exactly one command of rule R53 or reserved" (R54). -/
inductive Decoded where
  | command (i : Instr)
  | reserved (why : Reserved)
  deriving DecidableEq, Repr

/-- The field `OP`, bits 15:12 (R49). -/
def opField (w : CmdWord) : BitVec 4 := w.extractLsb' 12 4

/-- The field `IDX`, bits 11:8 (R49). -/
def idxField (w : CmdWord) : Nibble := w.extractLsb' 8 4

/-- The field `DATA`, bits 7:0 (R49). -/
def dataField (w : CmdWord) : Byte := w.extractLsb' 0 8

/-- Bit 3 of `IDX`, which the 8-entry formats require to be 0 (R50). -/
def idxBit3 (w : CmdWord) : Bool := (idxField w).getLsbD 3

/-- The low 3 bits of `IDX`, the index of an 8-entry table (R51). -/
def idxLow3 (w : CmdWord) : BitPos := (idxField w).extractLsb' 0 3

/-- Format B (R50): `IDX` must be 0, `DATA` is the byte operand. -/
def formatB (w : CmdWord) (mk : Byte → Instr) : Decoded :=
  if idxField w = 0 then .command (mk (dataField w)) else .reserved .idxNotZero

/-- Format W16 (R50): every `IDX` and `DATA` is legal. -/
def formatW16 (w : CmdWord) (mk : Nibble → Byte → Instr) : Decoded :=
  .command (mk (idxField w) (dataField w))

/-- Format W8 (R50): `IDX[3]` must be 0. -/
def formatW8 (w : CmdWord) (mk : BitPos → Byte → Instr) : Decoded :=
  if idxBit3 w then .reserved .idxBit3NotZero else .command (mk (idxLow3 w) (dataField w))

/-- Format N (R50): `IDX` and `DATA` must be 0. -/
def formatN (w : CmdWord) (i : Instr) : Decoded :=
  if idxField w = 0 then
    if dataField w = 0 then .command i else .reserved .dataNotZero
  else .reserved .idxNotZero

/-- Format R16 (R50): `DATA` must be 0. -/
def formatR16 (w : CmdWord) (mk : Nibble → Instr) : Decoded :=
  if dataField w = 0 then .command (mk (idxField w)) else .reserved .dataNotZero

/-- Format R8 (R50): `IDX[3]` and `DATA` must be 0. -/
def formatR8 (w : CmdWord) (mk : BitPos → Instr) : Decoded :=
  if idxBit3 w then .reserved .idxBit3NotZero
  else if dataField w = 0 then .command (mk (idxLow3 w)) else .reserved .dataNotZero

/-- Format R16 as `RDST` uses it: the index must also be that of a status register, 0 to 4 (R53). -/
def formatStatus (w : CmdWord) (mk : Nibble → Instr) : Decoded :=
  if statusIndexOk (idxField w) then formatR16 w mk else .reserved .statusIndex

/-- The command a word is, or why it is reserved (R52, R53). Opcodes 0x0, 0xE and 0xF are reserved (R59). -/
def decode (w : CmdWord) : Decoded :=
  match (opField w).toNat with
  | 0x1 => formatB w .subf
  | 0x2 => formatB w .subi
  | 0x3 => formatB w .prmf
  | 0x4 => formatB w .prmi
  | 0x5 => formatW16 w .wrs
  | 0x6 => formatW8 w .wrp
  | 0x7 => formatN w .inis
  | 0x8 => formatN w .inip
  | 0x9 => formatR16 w .rds
  | 0xA => formatR16 w .rdis
  | 0xB => formatR8 w .rdp
  | 0xC => formatR8 w .rdip
  | 0xD => formatStatus w .rdst
  | _ => .reserved .opcode

/-- `CW == {OP, IDX, DATA}` (R49). -/
def cmdWord (op idx : BitVec 4) (data : Byte) : CmdWord := op ++ idx ++ data

/-- A 3-bit index in the 4-bit field `IDX`, with `IDX[3]` = 0 (R50, formats W8 and R8). -/
def idxOfBitPos (i : BitPos) : BitVec 4 := 0#1 ++ i

/-- The word of a command: its row of the table (R53), unused fields 0 (R62). -/
def encode : Instr → CmdWord
  | .subf b => cmdWord 0x1 0 b
  | .subi b => cmdWord 0x2 0 b
  | .prmf b => cmdWord 0x3 0 b
  | .prmi b => cmdWord 0x4 0 b
  | .wrs i v => cmdWord 0x5 i v
  | .wrp i v => cmdWord 0x6 (idxOfBitPos i) v
  | .inis => cmdWord 0x7 0 0
  | .inip => cmdWord 0x8 0 0
  | .rds i => cmdWord 0x9 i 0
  | .rdis i => cmdWord 0xA i 0
  | .rdp i => cmdWord 0xB (idxOfBitPos i) 0
  | .rdip i => cmdWord 0xC (idxOfBitPos i) 0
  | .rdst r => cmdWord 0xD r 0

/-- The command of a decoded word, if it is one. -/
def Decoded.instr? : Decoded → Option Instr
  | .command i => some i
  | .reserved _ => none

/-- The decoder on a word as spec/opcode_table.json numbers its bits. There is one command length, 16 bits (R49), and
the word is presented in parallel (R33), so a row's bits are the command word's bits; a number with a bit at or above
`nbits`, or above bit 15, is no command word. -/
def decodeTableWord (nbits w : Nat) : Option Instr :=
  if w < 2 ^ nbits ∧ w < 2 ^ 16 then (decode (BitVec.ofNat 16 w)).instr? else none

end Sys2Proof
end

