-- ==== Sys2Proof/Config.lean ====
section
/-! DEFINITION. Config.lean: what an instance of the block fixes (R9, 00_scope.md; decision D6). -/

namespace Sys2Proof

/-- The configuration parameters of an instance (R9): the reset contents of the two forward tables. A
configuration whose tables are no bijections is legal: it makes the first `INIS` or `INIP` fail. -/
structure Config where
  /-- `S_RESET[0..15]`, 16 values of 8 bits. -/
  sReset : Vector Byte 16
  /-- `P_RESET[0..7]`, 8 values of 8 bits. -/
  pReset : Vector Byte 8
  deriving DecidableEq, Repr

/-- The default parameters, "for this hardware" (R8, R24): the tables of the source's two scenarios. -/
def Config.thisHardware : Config where
  sReset := #v[0xE, 0x4, 0xD, 0x1, 0x2, 0xF, 0xB, 0x8, 0x3, 0xA, 0x6, 0xC, 0x5, 0x9, 0x0, 0x7]
  pReset := #v[1, 5, 2, 0, 3, 7, 4, 6]

end Sys2Proof
end

