-- ==== Sys2Proof/Machine/State.lean ====
section
/-! DEFINITION. Machine/State.lean: the state of the block (10_state.md), the host's side of its one port (R123, R124,
70_reset_and_hazards.md), and the reset values (R24, R25). -/

namespace Sys2Proof.Machine

/-- The life-cycle state of an engine (R18). The fourth value of the 2-bit field never occurs and has no name (U11). -/
inductive EngineState where
  /-- Code 0: the reset state; the forward table may be written, nothing has been derived. -/
  | uninit
  /-- Code 1: initialisation succeeded; both tables are valid and immutable. -/
  | ready
  /-- Code 2: initialisation found the forward table to be no bijection; only reset leaves this state. -/
  | failed
  deriving DecidableEq, Repr

/-- The five status codes of a response (R97). Codes 5 to 15 are never produced and have no name (U11). -/
inductive Status where
  | ok
  | configError
  | notReady
  | locked
  | illegalCmd
  deriving DecidableEq, Repr

/-- A response: the status code `ST` and the data byte `RDATA` (R56). -/
structure Response where
  st : Status
  rdata : Byte
  deriving DecidableEq, Repr

/-- What the host can do to the block at transaction level (R123): present a command word, or reset. -/
inductive HostEvent where
  | command (w : CmdWord)
  | reset
  deriving DecidableEq, Repr

/-- The whole architectural state (R13), then the two lists that stand for the host's side of the port (log entry 2):
they are the model's own fields, and no command reads them. -/
structure State where
  /-- `S[0..15]`, the forward S table, 8 bits an entry (R14, R15). -/
  tabS : Vector Byte 16
  /-- `IS[0..15]`, the inverse S table, 4 bits an entry (R16). -/
  tabIS : Vector Nibble 16
  /-- `P[0..7]`, the forward P table, 8 bits an entry (R17, R15). -/
  tabP : Vector Byte 8
  /-- `IP[0..7]`, the inverse P table, 3 bits an entry (R17). -/
  tabIP : Vector BitPos 8
  /-- `S_STATE` (R18). -/
  sState : EngineState
  /-- `P_STATE` (R18). -/
  pState : EngineState
  /-- `S_ERRINFO` (R20, R22). -/
  sErrInfo : Byte
  /-- `S_ERRVAL` (R20). -/
  sErrVal : Byte
  /-- `P_ERRINFO` (R21, R22). -/
  pErrInfo : Byte
  /-- `P_ERRVAL` (R21). -/
  pErrVal : Byte
  /-- The host events still to come, the next one first (R123, R124). -/
  inputs : List HostEvent
  /-- The responses given so far, the oldest first (R55, R124). -/
  responses : List Response
  deriving DecidableEq, Repr

/-- Why a step stops with a fault: nothing does. The block takes no traps (R106), has no stuck states (R124), and every
error is a status of the response (R97), so there is no constructor, and nobody can raise one. -/
inductive Fault where
  deriving DecidableEq, Repr

/-- Why a step has no meaning. -/
inductive Refusal where
  /-- Raised by an arm of `exec` whose command has no meaning yet; safe (the run stops). No arm raises it: all
  thirteen commands have their meaning. -/
  | notModelled (mnemonic : String)
  deriving DecidableEq, Repr

/-- The machine right after reset, for any configuration (R24, R25, R114): the forward tables from the configuration,
both engines `UNINIT`, both error records zero. `IS` and `IP` are unspecified there and unobservable (R25, U5); the
model holds zero in them. DESIGN CHOICE (log entry 1), unsafe: a proof could lean on those zeros. -/
def State.resetWith (c : Config) : State where
  tabS := c.sReset
  tabIS := Vector.replicate 16 0
  tabP := c.pReset
  tabIP := Vector.replicate 8 0
  sState := .uninit
  pState := .uninit
  sErrInfo := 0
  sErrVal := 0
  pErrInfo := 0
  pErrVal := 0
  inputs := []
  responses := []

/-- The machine right after reset, with the default configuration of this hardware (R9, R24). -/
def State.reset : State := State.resetWith Config.thisHardware

end Sys2Proof.Machine
end

