-- ==== Sys2Proof/Machine/Operands.lean ====
section
/-! DEFINITION. Machine/Operands.lean: the operand forms of the block. Splitting and joining a Byte, selecting and placing
a bit (R127, 00_scope.md), narrowing an entry to the bits a data path reads (R63, R70), widening an entry on read (R35),
and reading and writing one entry of each index-addressed space (R31, 20_memory.md). -/

namespace Sys2Proof.Machine

/-- `b[7:4]` (R34, R63). -/
def hiNibble (b : Byte) : Nibble := b.extractLsb' 4 4

/-- `b[3:0]` (R34, R63). -/
def loNibble (b : Byte) : Nibble := b.extractLsb' 0 4

/-- `{hi, lo}`: `hi` in bits 7:4, `lo` in bits 3:0 (R63). -/
def joinNibbles (hi lo : Nibble) : Byte := hi ++ lo

/-- `v[3:0]` of a table entry of any width: the bits the substitution reads (R63). -/
def entryNibble {ew : Nat} (v : BitVec ew) : Nibble := v.extractLsb' 0 4

/-- `v[2:0]` of a table entry of any width: the source bit position the permutation reads (R70). -/
def entryBitPos {ew : Nat} (v : BitVec ew) : BitPos := v.extractLsb' 0 3

/-- `{0b0000, v}`: an entry of `IS` on the 8-bit response data (R35). -/
def widenNibble (v : Nibble) : Byte := 0#4 ++ v

/-- `{0b00000, v}`: an entry of `IP` on the 8-bit response data (R35). -/
def widenBitPos (v : BitPos) : Byte := 0#5 ++ v

/-- The index a 4-bit value names in a 16-entry table (R31): all 16 values name an entry, so no access is out of
range (R36). -/
def idx16 (i : Nibble) : Fin 16 := ⟨i.toNat, i.isLt⟩

/-- The index a 3-bit value names in an 8-entry table (R31, R36). -/
def idx8 (i : BitPos) : Fin 8 := ⟨i.toNat, i.isLt⟩

/-- An index of a table on the 4 bits of an entry of `IS` (R16) or of `ERRIDX` (R22); an index of the 8-entry table
leaves bit 3 zero (`zext_4(idx)`, R84). -/
def nibbleOfIdx {n : Nat} (i : Fin n) : Nibble := BitVec.ofNat 4 i.val

/-- An index of the 8-entry table on the 3 bits of an entry of `IP` (R17). -/
def bitPosOfIdx (i : Fin 8) : BitPos := BitVec.ofNat 3 i.val

/-- The 16-entry table with entry `j` = `f j`, written out, so that a state holding one unfolds in one step. -/
def table16 {α : Type} (f : Fin 16 → α) : Vector α 16 :=
  #v[f 0, f 1, f 2, f 3, f 4, f 5, f 6, f 7, f 8, f 9, f 10, f 11, f 12, f 13, f 14, f 15]

/-- The 8-entry table with entry `j` = `f j`, written out. -/
def table8 {α : Type} (f : Fin 8 → α) : Vector α 8 := #v[f 0, f 1, f 2, f 3, f 4, f 5, f 6, f 7]

/-- Entry `i` of a 16-entry table (R31). -/
def entry16 {α : Type} (t : Vector α 16) (i : Nibble) : α := t.get (idx16 i)

/-- Entry `i` of an 8-entry table (R31). -/
def entry8 {α : Type} (t : Vector α 8) (i : BitPos) : α := t.get (idx8 i)

/-- A 16-entry table with entry `i` replaced. -/
def setEntry16 {α : Type} (t : Vector α 16) (i : Nibble) (v : α) : Vector α 16 := t.set (idx16 i).val v (idx16 i).isLt

/-- An 8-entry table with entry `i` replaced. -/
def setEntry8 {α : Type} (t : Vector α 8) (i : BitPos) (v : α) : Vector α 8 := t.set (idx8 i).val v (idx8 i).isLt

end Sys2Proof.Machine
end

