-- ==== Sys2Proof/Machine/Flags.lean ====
section
/-! DEFINITION. Machine/Flags.lean: the codes and the bit layouts of what the block reports. It holds no flags (R28); what
plays their part is the status code of a response (R56, R97), the `ERRINFO` byte (R22) and the `STATUS` byte (R23). -/

namespace Sys2Proof.Machine

/-- The 2-bit code of an engine state (R18). -/
def EngineState.code : EngineState → BitVec 2
  | .uninit => 0
  | .ready => 1
  | .failed => 2

/-- The 4-bit code of a status (R97). -/
def Status.code : Status → BitVec 4
  | .ok => 0
  | .configError => 1
  | .notReady => 2
  | .locked => 3
  | .illegalCmd => 4

/-- `RSP == {ST, RDATA}` (R56). -/
def Response.word (r : Response) : RspWord := r.st.code ++ r.rdata

/-- Which table a `ConfigError` is about: the field `KIND` of `ERRINFO` (R22). -/
inductive TableKind where
  /-- `KIND` = 0, the table `S`. -/
  | substitution
  /-- `KIND` = 1, the table `P`. -/
  | permutation
  deriving DecidableEq, Repr

/-- `KIND`, one bit (R22). -/
def TableKind.code : TableKind → BitVec 1
  | .substitution => 0
  | .permutation => 1

/-- Why a table is no bijection: the field `CAUSE` of `ERRINFO` (R22, R77). `NONE` (0) is the cleared record. -/
inductive Cause where
  /-- The offending entry is not less than the table length. -/
  | range
  /-- The offending entry's value already appeared at a lower index. -/
  | duplicate
  deriving DecidableEq, Repr

/-- `CAUSE`, two bits (R22). -/
def Cause.code : Cause → BitVec 2
  | .range => 1
  | .duplicate => 2

/-- `ERRINFO == {0, KIND, CAUSE[1:0], ERRIDX[3:0]}` (R22). -/
def errInfo (k : TableKind) (c : Cause) (idx : Nibble) : Byte := 0#1 ++ k.code ++ c.code ++ idx

/-- `STATUS == {0b0000, P_STATE[1:0], S_STATE[1:0]}` (R23). -/
def statusByte (p s : EngineState) : Byte := 0#4 ++ p.code ++ s.code

end Sys2Proof.Machine
end

