-- ==== Sys2Proof/Machine/Ops.lean ====
section
/-! DEFINITION. Machine/Ops.lean: the shared operations. Giving a response (R55, R56), the two engine-state checks (R95,
R101), reading and writing the table spaces and the status space (R31, R23), recording a `ConfigError` (R98: the block's
only exception), and reset (R114: the only way back from it). -/

namespace Sys2Proof.Machine

/-- The outcome of a step of this machine. -/
abbrev Result := Host.Outcome State Fault Refusal

/-- The state with one more response given (R55). -/
def State.respond (s : State) (st : Status) (d : Byte) : State :=
  { s with responses := s.responses ++ [⟨st, d⟩] }

/-- `respond(ST, d)` of the rules: the command ends with that response (00_scope.md, section 5). -/
def respond (st : Status) (d : Byte) (s : State) : Result := .next (s.respond st d)

/-- `respond(NOT_READY, 0x00)`: computes nothing, changes nothing (R99, R57). -/
def refuseNotReady (s : State) : Result := respond .notReady 0 s

/-- `respond(LOCKED, 0x00)`: changes nothing (R100, R57). -/
def refuseLocked (s : State) : Result := respond .locked 0 s

/-- `respond(ILLEGAL_CMD, 0x00)`: no state is read or written (R59, R102, R57). -/
def refuseIllegal (s : State) : Result := respond .illegalCmd 0 s

/-- The check of the commands that need an engine `READY` (R95). -/
def whenReady (e : EngineState) (s : State) (k : Result) : Result :=
  match e with
  | .ready => k
  | .uninit => refuseNotReady s
  | .failed => refuseNotReady s

/-- The check of the commands that need an engine `UNINIT` (R95). -/
def whenUninit (e : EngineState) (s : State) (k : Result) : Result :=
  match e with
  | .uninit => k
  | .ready => refuseLocked s
  | .failed => refuseLocked s

/-- `S[i]`, 8 bits (R31). -/
def State.readS (s : State) (i : Nibble) : Byte := entry16 s.tabS i

/-- `IS[i]`, 4 bits (R31). -/
def State.readIS (s : State) (i : Nibble) : Nibble := entry16 s.tabIS i

/-- `P[i]`, 8 bits (R31). -/
def State.readP (s : State) (i : BitPos) : Byte := entry8 s.tabP i

/-- `IP[i]`, 3 bits (R31). -/
def State.readIP (s : State) (i : BitPos) : BitPos := entry8 s.tabIP i

/-- `S[i] <- v`: all 8 bits are stored (R35, R88). -/
def State.writeS (s : State) (i : Nibble) (v : Byte) : State := { s with tabS := setEntry16 s.tabS i v }

/-- `P[i] <- v`: all 8 bits are stored (R35, R89). -/
def State.writeP (s : State) (i : BitPos) (v : Byte) : State := { s with tabP := setEntry8 s.tabP i v }

/-- The status register of an index, if there is one (R23, R96). -/
def State.readStatus (s : State) (r : Nibble) : Option Byte :=
  match r.toNat with
  | 0 => some (statusByte s.pState s.sState)
  | 1 => some s.sErrInfo
  | 2 => some s.sErrVal
  | 3 => some s.pErrInfo
  | 4 => some s.pErrVal
  | _ => none

/-- All sixteen entries of `IS` and `S_STATE`, in one update (R37, R82). -/
def State.commitIS (s : State) (inv : Vector (Fin 16) 16) : State :=
  { s with tabIS := table16 fun j => nibbleOfIdx (inv.get j), sState := .ready }

/-- All eight entries of `IP` and `P_STATE`, in one update (R37, R84). -/
def State.commitIP (s : State) (inv : Vector (Fin 8) 8) : State :=
  { s with tabIP := table8 fun j => bitPosOfIdx (inv.get j), pState := .ready }

/-- The error record and the `FAILED` state of the engine whose table is invalid (R82, R84, R98). -/
def State.recordConfigError (s : State) (k : TableKind) (info val : Byte) : State :=
  match k with
  | .substitution => { s with sErrInfo := info, sErrVal := val, sState := .failed }
  | .permutation => { s with pErrInfo := info, pErrVal := val, pState := .failed }

/-- Taking a `ConfigError` (R83, R98): the record is written, the engine becomes `FAILED`, and the response is
`CONFIG_ERROR` with the `ERRINFO` byte. The block does not halt and transfers control nowhere (R106). -/
def takeConfigError (k : TableKind) (c : Cause) (idx : Nibble) (val : Byte) (s : State) : Result :=
  respond .configError (errInfo k c idx) (s.recordConfigError k (errInfo k c idx) val)

/-- The reset event (R114, R115): every piece of the block's state takes its reset value, whatever it was, and no
response is given. The events still to come and the responses already given are the host's and stay. -/
def State.applyReset (c : Config) (s : State) : State :=
  { State.resetWith c with inputs := s.inputs, responses := s.responses }

/-- The next host event and the state without it, if there is one (R40: one at a time, in the order given). -/
def State.takeEvent (s : State) : Option (HostEvent × State) :=
  match s.inputs with
  | [] => none
  | e :: rest => some (e, { s with inputs := rest })

/-- The state in which the host presents the command word `w` next, before the events already waiting. -/
def State.presentWord (s : State) (w : CmdWord) : State := { s with inputs := .command w :: s.inputs }

end Sys2Proof.Machine
end

