-- ==== Sys2Proof/Machine/Permutation.lean ====
section
/-! DEFINITION. Machine/Permutation.lean: the Permutation Engine (41_permutation.md): PRMF, PRMI. -/

namespace Sys2Proof.Machine

/-- Output bit `i` of `PermByte(b, T)`, at its place: input bit `T[i][2:0]` moved to bit `i` (R70: a gather). -/
def gatherBit {ew : Nat} (b : Byte) (t : Vector (BitVec ew) 8) (i : Fin 8) : Byte :=
  if b.getLsbD (entryBitPos (entry8 t (bitPosOfIdx i))).toNat then 1#8 <<< i.val else 0

/-- `PermByte(b, T)` (R70): the OR of the eight gathered bits. The table's entries may be 8 bits (`P`) or 3 bits
(`IP`); the low three are read. -/
def permByte {ew : Nat} (b : Byte) (t : Vector (BitVec ew) 8) : Byte :=
  (List.finRange 8).foldl (fun r i => r ||| gatherBit b t i) 0

/-- `PRMF b` (R72). -/
def execPrmf (b : Byte) (s : State) : Result :=
  whenReady s.pState s (respond .ok (permByte b s.tabP) s)

/-- `PRMI b` (R73). -/
def execPrmi (b : Byte) (s : State) : Result :=
  whenReady s.pState s (respond .ok (permByte b s.tabIP) s)

end Sys2Proof.Machine
end

