-- ==== Sys2Proof/Machine/Substitution.lean ====
section
/-! DEFINITION. Machine/Substitution.lean: the Substitution Engine (40_substitution.md): SUBF, SUBI. -/

namespace Sys2Proof.Machine

/-- `SubByte(b, T)` (R63): each nibble is looked up on its own and put back in its place. The table's entries may be
8 bits (`S`) or 4 bits (`IS`); the low four are read. -/
def subByte {ew : Nat} (b : Byte) (t : Vector (BitVec ew) 16) : Byte :=
  joinNibbles (entryNibble (entry16 t (hiNibble b))) (entryNibble (entry16 t (loNibble b)))

/-- `SUBF b` (R65). -/
def execSubf (b : Byte) (s : State) : Result :=
  whenReady s.sState s (respond .ok (subByte b s.tabS) s)

/-- `SUBI b` (R66). -/
def execSubi (b : Byte) (s : State) : Result :=
  whenReady s.sState s (respond .ok (subByte b s.tabIS) s)

end Sys2Proof.Machine
end

