-- ==== Sys2Proof/Machine/TableAccess.lean ====
section
/-! DEFINITION. Machine/TableAccess.lean: table and status access (43_table_access.md): WRS, WRP, RDS, RDIS, RDP, RDIP,
RDST. -/

namespace Sys2Proof.Machine

/-- `WRS i, v` (R88): nothing is validated at write time (R90). -/
def execWrs (i : Nibble) (v : Byte) (s : State) : Result :=
  whenUninit s.sState s (respond .ok 0 (s.writeS i v))

/-- `WRP i, v` (R89). -/
def execWrp (i : BitPos) (v : Byte) (s : State) : Result :=
  whenUninit s.pState s (respond .ok 0 (s.writeP i v))

/-- `RDS i` (R91): allowed in every engine state. -/
def execRds (i : Nibble) (s : State) : Result := respond .ok (s.readS i) s

/-- `RDIS i` (R92). -/
def execRdis (i : Nibble) (s : State) : Result :=
  whenReady s.sState s (respond .ok (widenNibble (s.readIS i)) s)

/-- `RDP i` (R93): allowed in every engine state. -/
def execRdp (i : BitPos) (s : State) : Result := respond .ok (s.readP i) s

/-- `RDIP i` (R94). -/
def execRdip (i : BitPos) (s : State) : Result :=
  whenReady s.pState s (respond .ok (widenBitPos (s.readIP i)) s)

/-- `RDST r` (R96). An index of 5 to 15 names no register and is answered `ILLEGAL_CMD` (R23, R59); the decoder never
hands one over, since such a word is reserved. -/
def execRdst (r : Nibble) (s : State) : Result :=
  match s.readStatus r with
  | some v => respond .ok v s
  | none => refuseIllegal s

end Sys2Proof.Machine
end

