-- ==== Sys2Proof/Machine/TableInit.lean ====
section
/-! DEFINITION. Machine/TableInit.lean: inverse-table derivation and initialisation (42_table_init.md): INIS, INIP. -/

namespace Sys2Proof.Machine

/-- What `InvertTable(n, T)` returns (R77). -/
inductive Inversion (n : Nat) where
  /-- `Ok(inv)`: the inverse table, every entry less than `n`. -/
  | ok (inv : Vector (Fin n) n)
  /-- `Err(cause, idx, val)`: the first offending entry. -/
  | err (cause : Cause) (idx : Fin n) (val : Byte)
  deriving DecidableEq, Repr

/-- The inverse table as far as the scan has filled it: slot `v` holds `some i` once `inv[v] = i` and `filled[v]`
hold, `none` while `filled[v]` is false (R77). -/
abbrev Slots (n : Nat) := Vector (Option (Fin n)) n

/-- The inverse table of the slots. When the scan has ended without an error every slot is filled (R78), so the value
given for an empty slot is never used. -/
def Slots.table {n : Nat} (slots : Slots n) : Vector (Fin n) n :=
  Vector.ofFn fun j => (slots.get j).getD j

/-- The loop of `InvertTable` over the indices still to scan, in ascending order: `RANGE` is tested before `DUPLICATE`,
and the first offending entry ends the scan (R77). -/
def invertScan {n : Nat} (t : Vector Byte n) : List (Fin n) → Slots n → Inversion n
  | [], slots => .ok slots.table
  | i :: rest, slots =>
    if h : (t.get i).toNat < n then
      match slots.get ⟨(t.get i).toNat, h⟩ with
      | some _ => .err .duplicate i (t.get i)
      | none => invertScan t rest (slots.set (t.get i).toNat (some i) h)
    else .err .range i (t.get i)

/-- `InvertTable(n, T)` (R77), once, with the length `n` an argument (R80). -/
def invertTable {n : Nat} (t : Vector Byte n) : Inversion n :=
  invertScan t (List.finRange n) (Vector.replicate n none)

/-- `INIS` (R82). -/
def execInis (s : State) : Result :=
  whenUninit s.sState s <|
    match invertTable s.tabS with
    | .ok inv => respond .ok 0 (s.commitIS inv)
    | .err cause idx val => takeConfigError .substitution cause (nibbleOfIdx idx) val s

/-- `INIP` (R84). -/
def execInip (s : State) : Result :=
  whenUninit s.pState s <|
    match invertTable s.tabP with
    | .ok inv => respond .ok 0 (s.commitIP inv)
    | .err cause idx val => takeConfigError .permutation cause (nibbleOfIdx idx) val s

end Sys2Proof.Machine
end

