-- ==== Sys2Proof/Machine/Dispatch.lean ====
section
/-! DEFINITION. Machine/Dispatch.lean: one arm per command of the opcode table (R52, 30_encoding.md). -/

namespace Sys2Proof.Machine

def exec (i : Instr) (s : State) : Host.Outcome State Fault Refusal :=
  match i with
  -- 40_substitution.md
  | .subf b => Sys2Proof.Machine.execSubf b s
  | .subi b => Sys2Proof.Machine.execSubi b s
  -- 41_permutation.md
  | .prmf b => Sys2Proof.Machine.execPrmf b s
  | .prmi b => Sys2Proof.Machine.execPrmi b s
  -- 43_table_access.md, writes
  | .wrs k v => Sys2Proof.Machine.execWrs k v s
  | .wrp k v => Sys2Proof.Machine.execWrp k v s
  -- 42_table_init.md
  | .inis => Sys2Proof.Machine.execInis s
  | .inip => Sys2Proof.Machine.execInip s
  -- 43_table_access.md, reads
  | .rds k => Sys2Proof.Machine.execRds k s
  | .rdis k => Sys2Proof.Machine.execRdis k s
  | .rdp k => Sys2Proof.Machine.execRdp k s
  | .rdip k => Sys2Proof.Machine.execRdip k s
  | .rdst r => Sys2Proof.Machine.execRdst r s

end Sys2Proof.Machine
end

