-- ==== Sys2Proof/Machine/Transaction.lean ====
section
/-! DEFINITION. Machine/Transaction.lean: one transaction of the block (R46, 30_encoding.md) and one host event (R123,
70_reset_and_hazards.md). -/

namespace Sys2Proof.Machine

/-- The block executes one command word (R46): decoding comes first and looks at the word alone (R101); a reserved
word is answered `ILLEGAL_CMD` (R59). -/
def executeWord (w : CmdWord) (s : State) : Result :=
  match decode w with
  | .command i => exec i s
  | .reserved _ => refuseIllegal s

/-- One host event: a command word is executed, a reset is applied (R123, R124). -/
def handleEvent (c : Config) (e : HostEvent) (s : State) : Result :=
  match e with
  | .command w => executeWord w s
  | .reset => .next (s.applyReset c)

/-- One step of the block with the configuration `c`: the next host event, or, with none waiting, nothing at all
("the state does not change while no command is accepted and `rst == 0`", R123). -/
def stepWith (c : Config) (s : State) : Result :=
  match s.takeEvent with
  | none => .next s
  | some (e, rest) => handleEvent c e rest

end Sys2Proof.Machine
end

