-- ==== Sys2Proof/Machine/Step.lean ====
section
/-! DEFINITION. Machine/Step.lean: the step of this hardware, and where the host finds the next command word. -/

namespace Sys2Proof.Machine

/-- One step, with the default configuration of this hardware (R9, R24). DEDUCED (log entry 8). -/
def step (s : State) : Host.Outcome State Fault Refusal := stepWith Config.thisHardware s

/-- The block fetches nothing (R27): what it executes next is the word the host presents next, so the word stands
first among the host events (log entry 3). The one command length is 16 bits (R49); bits at or above `nbits` are 0. -/
def State.withFetchWord (s : State) (nbits w : Nat) : State := s.presentWord (BitVec.ofNat 16 (w % 2 ^ nbits))

end Sys2Proof.Machine
end

