-- ==== Sys2Proof/Machine/Pins.lean ====
section
/-! DEFINITION. Machine/Pins.lean: the block behind its pins (R47, R48, 30_encoding.md; R114, R116, R125,
70_reset_and_hazards.md). The spec's normative level is the transaction (`stepWith`); this layer says when, in clock
edges, a transaction is accepted and answered, and that a reset abandons it. `step` does not use it.
What the spec leaves open here is in log entries 4 (latency and edges), 5 (free pin values), 6 (reset at the response
edge, and where the effect falls) and 7 (the layer and its counters). -/

namespace Sys2Proof.Machine

/-- The inputs of one clock cycle, sampled at the rising edge that ends it (R47, R114). -/
structure PinIn where
  rst : Bool
  cmdValid : Bool
  cmd : CmdWord
  deriving DecidableEq, Repr

/-- The outputs during one clock cycle (R47, R48). -/
structure PinOut where
  cmdReady : Bool
  rspValid : Bool
  rsp : RspWord
  deriving DecidableEq, Repr

/-- A command accepted whose response is not yet given: not architectural (R29). `left` counts the edges still to
come, the one at which the response is given included. -/
structure InFlight where
  word : CmdWord
  left : Nat
  deriving DecidableEq, Repr

/-- The block with its clocked interface. The two counters are the model's own: they make the open values below
fresh at every use. -/
structure Clocked where
  block : State
  inFlight : Option InFlight
  accepted : Nat
  cycle : Nat
  deriving DecidableEq, Repr

end Sys2Proof.Machine

namespace Sys2Proof

/-- The constant of the implementation that bounds the latency (R125), left open. -/
opaque Config.latencyBound : Nat

/-- A free value: which latency a command takes within its bounds. It may depend on anything the block holds, since no
claim is made that it does not (R126). -/
opaque Config.latencyDraw : Nat → CmdWord → Machine.State → Nat

/-- A free value: what `rsp` shows while `rsp_valid` is 0 (R48, U7). -/
opaque Config.idleRsp : Nat → Machine.Clocked → RspWord

/-- A free value: what `cmd_ready` shows during reset (U7). -/
opaque Config.resetReady : Nat → Machine.Clocked → Bool

end Sys2Proof

namespace Sys2Proof.Machine

/-- `LAT` of one command: at least 1, and bounded by a constant of the implementation (R125). -/
def latency (n : Nat) (w : CmdWord) (s : State) : Nat :=
  1 + Config.latencyDraw n w s % (Config.latencyBound + 1)

/-- The response a command word gets in a state: the last one given once it has been executed. -/
def answerTo (w : CmdWord) (s : State) : Option Response :=
  match executeWord w s with
  | .next t => t.responses.getLast?
  | .fault _ => none
  | .refused _ => none

/-- The response of the cycle, if its closing edge gives one: the command in flight has one edge left and no reset
cuts it short (R48, R116). -/
def Clocked.responseNow (p : Clocked) (inp : PinIn) : Option Response :=
  match p.inFlight with
  | some f => if f.left = 1 && !inp.rst then answerTo f.word p.block else none
  | none => none

/-- The outputs of a cycle: `cmd_ready` is 0 from an acceptance to the edge that gives its response and 1 otherwise
(R47); `rsp_valid` is 1 in the cycle of the response, with `rsp` the response word (R48). -/
def Clocked.out (p : Clocked) (inp : PinIn) : PinOut where
  cmdReady := if inp.rst then Config.resetReady p.cycle p else p.inFlight.isNone
  rspValid := (p.responseNow inp).isSome
  rsp :=
    match p.responseNow inp with
    | some r => r.word
    | none => Config.idleRsp p.cycle p

/-- The clocked block one cycle later, with the block's state and the command in flight given. -/
def Clocked.advance (p : Clocked) (s : State) (f : Option InFlight) : Clocked :=
  { block := s, inFlight := f, accepted := p.accepted, cycle := p.cycle + 1 }

/-- The edge that accepts a command: `cmd_valid` and `cmd_ready` are 1 and `rst` is 0 (R47). -/
def Clocked.accept (p : Clocked) (w : CmdWord) : Clocked :=
  { block := p.block
    inFlight := some { word := w, left := latency p.accepted w p.block }
    accepted := p.accepted + 1
    cycle := p.cycle + 1 }

/-- The edge that gives a response: the command takes effect, all at once (R37), and the response is given (R48). -/
def Clocked.complete (p : Clocked) (f : InFlight) : Host.Outcome Clocked Fault Refusal :=
  match executeWord f.word p.block with
  | .next s => .next (p.advance s none)
  | .fault r => .fault r
  | .refused r => .refused r

/-- One rising edge of `clk`. With `rst` 1 the whole state takes its reset value and a command in flight is abandoned
with no response (R114, R116); otherwise the command in flight comes one edge nearer to its response, or, with none in
flight, a valid command is accepted. -/
def Clocked.tick (c : Config) (p : Clocked) (inp : PinIn) : Host.Outcome Clocked Fault Refusal :=
  if inp.rst then .next (p.advance (p.block.applyReset c) none)
  else
    match p.inFlight with
    | none => if inp.cmdValid then .next (p.accept inp.cmd) else .next (p.advance p.block none)
    | some f =>
      if f.left = 1 then p.complete f
      else .next (p.advance p.block (some { f with left := f.left - 1 }))

/-- Several edges, one input for each. -/
def Clocked.run (c : Config) : List PinIn → Clocked → Host.Outcome Clocked Fault Refusal
  | [], p => .next p
  | inp :: rest, p =>
    match p.tick c inp with
    | .next q => q.run c rest
    | .fault r => .fault r
    | .refused r => .refused r

end Sys2Proof.Machine
end

