-- ==== Sys2Proof/Safety.lean ====
section
/-! DEFINITION. Safety.lean: the terms claims are stated in. Runs of a configuration, the invariants of 10_state.md
(R19 to R22), and what the states of a run share. -/

namespace Sys2Proof.Machine

/-- `k` steps with the configuration `c` (R124). -/
def runWith (c : Config) : Nat → State → Result
  | 0, s => .next s
  | k + 1, s =>
    match stepWith c s with
    | .next t => runWith c k t
    | .fault r => .fault r
    | .refused r => .refused r

/-- The states a run can reach: from reset, whatever events the host presents (R123, R124). -/
inductive Reachable (c : Config) : State → Prop where
  /-- Right after reset, with any events still to come. -/
  | start (events : List HostEvent) : Reachable c { State.resetWith c with inputs := events }
  /-- One step on. -/
  | step {s t : State} : Reachable c s → stepWith c s = .next t → Reachable c t

/-- The S tables of a READY engine (R19): every entry of `S` is in range, and `IS` undoes `S`. -/
def State.SubTablesValid (s : State) : Prop :=
  ∀ i : Nibble, (s.readS i).toNat < 16 ∧ s.readIS (entryNibble (s.readS i)) = i

/-- The P tables of a READY engine (R19): every entry of `P` is in range, and `IP` undoes `P`. -/
def State.PermTablesValid (s : State) : Prop :=
  ∀ i : BitPos, (s.readP i).toNat < 8 ∧ s.readIP (entryBitPos (s.readP i)) = i

/-- The S engine's error record agrees with its state (R20, R22): zero unless the engine is `FAILED`; then it names
an entry of `S` that is out of range, or repeats one at a lower index. -/
def State.SubRecordValid (s : State) : Prop :=
  (s.sState ≠ .failed → s.sErrInfo = 0 ∧ s.sErrVal = 0) ∧
  (s.sState = .failed → ∃ i : Nibble, s.sErrVal = s.readS i ∧
    ((s.sErrInfo = errInfo .substitution .range i ∧ 16 ≤ (s.readS i).toNat) ∨
     (s.sErrInfo = errInfo .substitution .duplicate i ∧ ∃ j : Nibble, j < i ∧ s.readS j = s.readS i)))

/-- The P engine's error record agrees with its state (R21, R22); its index is 0 to 7. -/
def State.PermRecordValid (s : State) : Prop :=
  (s.pState ≠ .failed → s.pErrInfo = 0 ∧ s.pErrVal = 0) ∧
  (s.pState = .failed → ∃ i : BitPos, s.pErrVal = s.readP i ∧
    ((s.pErrInfo = errInfo .permutation .range (idxOfBitPos i) ∧ 8 ≤ (s.readP i).toNat) ∨
     (s.pErrInfo = errInfo .permutation .duplicate (idxOfBitPos i) ∧ ∃ j : BitPos, j < i ∧ s.readP j = s.readP i)))

/-- The invariant of the block: what every reachable state satisfies and every step keeps (R19, R20, R21, R22). -/
structure State.Inv (s : State) : Prop where
  subTables : s.sState = .ready → s.SubTablesValid
  permTables : s.pState = .ready → s.PermTablesValid
  subRecord : s.SubRecordValid
  permRecord : s.PermRecordValid

/-- A table of `n` bytes is a bijection on 0..n-1 (R14, R17, R78): "each value appears exactly once". -/
def IsBijection {n : Nat} (t : Vector Byte n) : Prop :=
  ∀ v : Fin n, ∃ i : Fin n, (t.get i).toNat = v.val ∧ ∀ j : Fin n, (t.get j).toNat = v.val → j = i

/-- Entry `i` is the first offending one of a candidate table, and why (R77): no lower entry is out of range or repeats
one below it, and entry `i` is out of range, or is in range and repeats a lower one. -/
def FirstOffender {n : Nat} (t : Vector Byte n) (c : Cause) (i : Fin n) : Prop :=
  (∀ j : Fin n, j < i → (t.get j).toNat < n ∧ ∀ k : Fin n, k < j → t.get k ≠ t.get j) ∧
  match c with
  | .range => n ≤ (t.get i).toNat
  | .duplicate => (t.get i).toNat < n ∧ ∃ j : Fin n, j < i ∧ t.get j = t.get i

/-- `zext_8(inv)`: an inverse table written back as a candidate table (R79). -/
def widenTable {n : Nat} (inv : Vector (Fin n) n) : Vector Byte n :=
  Vector.ofFn fun j : Fin n => BitVec.ofNat 8 (inv.get j).val

end Sys2Proof.Machine

namespace Sys2Proof

/-- `(OP << 12) | (i << 8) | v`, on 16 bits (R62). -/
def shiftedWord (op idx : BitVec 4) (v : Byte) : CmdWord :=
  (op.setWidth 16 <<< 12) ||| (idx.setWidth 16 <<< 8) ||| v.setWidth 16

/-- The reserved words, in the words of R59. -/
def ReservedWord (w : CmdWord) : Prop :=
  opField w ∈ [0x0#4, 0xE#4, 0xF#4] ∨
  (opField w ∈ [0x1#4, 0x2#4, 0x3#4, 0x4#4, 0x7#4, 0x8#4] ∧ idxField w ≠ 0) ∨
  (opField w ∈ [0x6#4, 0xB#4, 0xC#4] ∧ (idxField w).getLsbD 3 = true) ∨
  (opField w ∈ [0x7#4, 0x8#4, 0x9#4, 0xA#4, 0xB#4, 0xC#4, 0xD#4] ∧ dataField w ≠ 0) ∨
  (opField w = 0xD#4 ∧ 5 ≤ (idxField w).toNat)

/-- The commands that only read: the four transforms and the five reads (R38). -/
def Instr.onlyReads : Instr → Bool
  | .subf _ | .subi _ | .prmf _ | .prmi _ | .rds _ | .rdis _ | .rdp _ | .rdip _ | .rdst _ => true
  | .wrs _ _ | .wrp _ _ | .inis | .inip => false

/-- The commands of the S engine (R95). -/
def Instr.usesSub : Instr → Bool
  | .subf _ | .subi _ | .wrs _ _ | .inis | .rds _ | .rdis _ => true
  | .prmf _ | .prmi _ | .wrp _ _ | .inip | .rdp _ | .rdip _ | .rdst _ => false

/-- The commands of the P engine (R95). -/
def Instr.usesPerm : Instr → Bool
  | .prmf _ | .prmi _ | .wrp _ _ | .inip | .rdp _ | .rdip _ => true
  | .subf _ | .subi _ | .wrs _ _ | .inis | .rds _ | .rdis _ | .rdst _ => false

end Sys2Proof

namespace Sys2Proof.Machine

/-- The engine-state check of a command (R95): the refusal it gets in the state `s`, if it gets one. -/
def stateRefusal (i : Instr) (s : State) : Option Status :=
  match i with
  | .subf _ | .subi _ | .rdis _ => if s.sState = .ready then none else some .notReady
  | .prmf _ | .prmi _ | .rdip _ => if s.pState = .ready then none else some .notReady
  | .wrs _ _ | .inis => if s.sState = .uninit then none else some .locked
  | .wrp _ _ | .inip => if s.pState = .uninit then none else some .locked
  | .rds _ | .rdp _ | .rdst _ => none

/-- Whether a host event is a command word; the other kind is a reset. -/
def HostEvent.isCommand : HostEvent → Bool
  | .command _ => true
  | .reset => false

/-- Command words executed one after another (R40), the events of a run with no reset in it. -/
def runWords : List CmdWord → State → Result
  | [], s => .next s
  | w :: rest, s =>
    match executeWord w s with
    | .next t => runWords rest t
    | .fault r => .fault r
    | .refused r => .refused r

/-- The number of 1 bits of a byte (R75). -/
def onesCount (b : Byte) : Nat := (List.finRange 8).countP fun i => b.getLsbD i.val

/-- Two states agree on everything of the S engine (R18): its tables, its life-cycle state and its error record. -/
def State.SameSub (s t : State) : Prop :=
  t.tabS = s.tabS ∧ t.tabIS = s.tabIS ∧ t.sState = s.sState ∧ t.sErrInfo = s.sErrInfo ∧ t.sErrVal = s.sErrVal

/-- Two states agree on everything of the P engine (R18). -/
def State.SamePerm (s t : State) : Prop :=
  t.tabP = s.tabP ∧ t.tabIP = s.tabIP ∧ t.pState = s.pState ∧ t.pErrInfo = s.pErrInfo ∧ t.pErrVal = s.pErrVal

/-- The block's own state (R13) is the same in two states; the host's lists may differ. -/
def State.SameBlock (s t : State) : Prop := s.SameSub t ∧ s.SamePerm t

end Sys2Proof.Machine
end

