-- ==== Sys2Proof/Certificates/Slice0/Obligations.lean ====
section
/-! DEFINITION. Certificates/Slice0/Obligations.lean: the statements for the provers, one for each numbered rule or group of
rules of spec/ that says what a command or the block does. -/

open Sys2Proof Sys2Proof.Machine

/-! Encoding (30_encoding.md) -/

/-- R49, R50, R53: decoding the word of a well-formed command gives the command back, every operand at every value. -/
def Obligations.DecodeUndoesEncode : Prop :=
  ∀ i : Instr, i.WellFormed = true → decode (encode i) = .command i

/-- R53, R54: a word that is a command is the word of that command and of no other, and the command is well formed. -/
def Obligations.EncodeUndoesDecode : Prop :=
  ∀ (w : CmdWord) (i : Instr), decode w = .command i → i.WellFormed = true ∧ encode i = w

/-- R53: a word is the command of a row exactly when its bits under the row's mask are the row's match (for `RDST`, with
the index at most 4 as well); the operands are the bits the row's pattern gives them. -/
def Obligations.DecodeFollowsMatchAndMask : Prop :=
  ∀ w : CmdWord,
    (∀ b, decode w = .command (.subf b) ↔ w &&& 0xFF00#16 = 0x1000#16 ∧ b = w.extractLsb' 0 8) ∧
    (∀ b, decode w = .command (.subi b) ↔ w &&& 0xFF00#16 = 0x2000#16 ∧ b = w.extractLsb' 0 8) ∧
    (∀ b, decode w = .command (.prmf b) ↔ w &&& 0xFF00#16 = 0x3000#16 ∧ b = w.extractLsb' 0 8) ∧
    (∀ b, decode w = .command (.prmi b) ↔ w &&& 0xFF00#16 = 0x4000#16 ∧ b = w.extractLsb' 0 8) ∧
    (∀ i v, decode w = .command (.wrs i v) ↔
      w &&& 0xF000#16 = 0x5000#16 ∧ i = w.extractLsb' 8 4 ∧ v = w.extractLsb' 0 8) ∧
    (∀ i v, decode w = .command (.wrp i v) ↔
      w &&& 0xF800#16 = 0x6000#16 ∧ i = w.extractLsb' 8 3 ∧ v = w.extractLsb' 0 8) ∧
    (decode w = .command .inis ↔ w &&& 0xFFFF#16 = 0x7000#16) ∧
    (decode w = .command .inip ↔ w &&& 0xFFFF#16 = 0x8000#16) ∧
    (∀ i, decode w = .command (.rds i) ↔ w &&& 0xF0FF#16 = 0x9000#16 ∧ i = w.extractLsb' 8 4) ∧
    (∀ i, decode w = .command (.rdis i) ↔ w &&& 0xF0FF#16 = 0xA000#16 ∧ i = w.extractLsb' 8 4) ∧
    (∀ i, decode w = .command (.rdp i) ↔ w &&& 0xF8FF#16 = 0xB000#16 ∧ i = w.extractLsb' 8 3) ∧
    (∀ i, decode w = .command (.rdip i) ↔ w &&& 0xF8FF#16 = 0xC000#16 ∧ i = w.extractLsb' 8 3) ∧
    (∀ r, decode w = .command (.rdst r) ↔
      w &&& 0xF0FF#16 = 0xD000#16 ∧ r = w.extractLsb' 8 4 ∧ r.toNat ≤ 4)

/-- R62: `CW = (OP << 12) | (i << 8) | v`, `i` = 0 where the form has no index, `v` = 0 where it has no data. -/
def Obligations.EncodingIsShiftedFields : Prop :=
  (∀ b, encode (.subf b) = shiftedWord 0x1 0 b) ∧ (∀ b, encode (.subi b) = shiftedWord 0x2 0 b) ∧
  (∀ b, encode (.prmf b) = shiftedWord 0x3 0 b) ∧ (∀ b, encode (.prmi b) = shiftedWord 0x4 0 b) ∧
  (∀ i v, encode (.wrs i v) = shiftedWord 0x5 i v) ∧
  (∀ (i : BitPos) v, encode (.wrp i v) = shiftedWord 0x6 (i.setWidth 4) v) ∧
  encode .inis = shiftedWord 0x7 0 0 ∧ encode .inip = shiftedWord 0x8 0 0 ∧
  (∀ i, encode (.rds i) = shiftedWord 0x9 i 0) ∧ (∀ i, encode (.rdis i) = shiftedWord 0xA i 0) ∧
  (∀ i : BitPos, encode (.rdp i) = shiftedWord 0xB (i.setWidth 4) 0) ∧
  (∀ i : BitPos, encode (.rdip i) = shiftedWord 0xC (i.setWidth 4) 0) ∧
  (∀ r, encode (.rdst r) = shiftedWord 0xD r 0) ∧
  encode (.wrs 3 0x01) = 0x5301

/-- R60: the example words of the manual's table of forms, each beside its command. -/
def Obligations.ManualWordsDecode : Prop :=
  decode 0x10B3 = .command (.subf 0xB3) ∧ decode 0x20C1 = .command (.subi 0xC1) ∧
  decode 0x30B3 = .command (.prmf 0xB3) ∧ decode 0x406B = .command (.prmi 0x6B) ∧
  decode 0x5301 = .command (.wrs 3 0x01) ∧ decode 0x6706 = .command (.wrp 7 6) ∧
  decode 0x7000 = .command .inis ∧ decode 0x8000 = .command .inip ∧
  decode 0x9B00 = .command (.rds 11) ∧ decode 0xAC00 = .command (.rdis 12) ∧
  decode 0xB100 = .command (.rdp 1) ∧ decode 0xC500 = .command (.rdip 5) ∧
  decode 0xD000 = .command (.rdst 0) ∧ decode 0x0000 = .reserved .opcode

/-- R59, R102: the reserved words are those the rule lists, whatever the state; a step on one reads and writes nothing
and answers `ILLEGAL_CMD, 0x00`, and the block goes on with the next event. -/
def Obligations.ReservedWordsAreIllegal : Prop :=
  (∀ w : CmdWord, (∃ why, decode w = .reserved why) ↔ ReservedWord w) ∧
  ∀ (c : Config) (s : State) (w : CmdWord) (rest : List HostEvent),
    s.inputs = .command w :: rest → ReservedWord w →
    stepWith c s = .next { s with inputs := rest, responses := s.responses ++ [⟨.illegalCmd, 0⟩] }

/-- R56: the response word is the status code, 0 to 4, in bits 11:8 and the data in bits 7:0. -/
def Obligations.ResponseWordLayout : Prop :=
  (∀ r : Response, r.word.extractLsb' 8 4 = r.st.code ∧ r.word.extractLsb' 0 8 = r.rdata ∧ r.st.code.toNat ≤ 4) ∧
  Status.ok.code = 0 ∧ Status.configError.code = 1 ∧ Status.notReady.code = 2 ∧ Status.locked.code = 3 ∧
  Status.illegalCmd.code = 4

/-! Transactions, steps and runs (20_memory.md, 70_reset_and_hazards.md) -/

/-- R40, R46: when the word the host presents next is a command, a step takes it off the host's list and is that
command's meaning. The host's list of events and the place where `withFetchWord` puts a word are the model's own (log
entries 2 and 3). That the step of this hardware is the step of the default configuration is read from R9 and R24 (log
entry 8). -/
def Obligations.StepRunsDecodedCommand : Prop :=
  (∀ (c : Config) (s : State) (w : CmdWord) (rest : List HostEvent) (i : Instr),
    s.inputs = .command w :: rest → decode w = .command i → stepWith c s = exec i { s with inputs := rest }) ∧
  (∀ s : State, step s = stepWith Config.thisHardware s) ∧
  (∀ (s : State) (i : Instr), i.WellFormed = true → step (s.withFetchWord 16 (encode i).toNat) = exec i s)

/-- R55: exactly one response for every command word, reserved words included, and none otherwise. That a step with no
event to come leaves the whole state as it is rests on R123 ("the state does not change while no command is accepted")
and on the model's choice of what a step is when the host's list is empty (log entry 2). -/
def Obligations.OneResponsePerCommand : Prop :=
  ∀ (c : Config) (s : State),
    (∀ w rest, s.inputs = .command w :: rest →
      ∃ t r, stepWith c s = .next t ∧ t.responses = s.responses ++ [r] ∧ t.inputs = rest) ∧
    (∀ rest, s.inputs = .reset :: rest →
      ∃ t, stepWith c s = .next t ∧ t.responses = s.responses ∧ t.inputs = rest) ∧
    (s.inputs = [] → stepWith c s = .next s)

/-- R124: every finite list of events has a run that ends, with no fault and no refusal, in as many steps as there are
events, and answers as many responses as there are command words in it. -/
def Obligations.EveryRunEnds : Prop :=
  ∀ (c : Config) (events : List HostEvent), ∃ t : State,
    runWith c events.length { State.resetWith c with inputs := events } = .next t ∧ t.inputs = [] ∧
    t.responses.length = events.countP HostEvent.isCommand

/-- R114, R116: a reset gives every register the spec gives a reset value that value, whatever the state before it,
and no response; at the pins it does so at any edge with `rst` 1, and abandons a command in flight. That it abandons
one even at the very edge that would give its response is the model's choice, which R116 does not settle (log entry 6).
Of `IS` and `IP`, which the spec leaves unspecified there, it says nothing. -/
def Obligations.ResetGivesResetState : Prop :=
  (∀ (c : Config) (s : State) (rest : List HostEvent), s.inputs = .reset :: rest →
    ∃ t, stepWith c s = .next t ∧ t.tabS = c.sReset ∧ t.tabP = c.pReset ∧ t.sState = .uninit ∧ t.pState = .uninit ∧
      t.sErrInfo = 0 ∧ t.sErrVal = 0 ∧ t.pErrInfo = 0 ∧ t.pErrVal = 0 ∧
      t.responses = s.responses ∧ t.inputs = rest) ∧
  (∀ (c : Config) (p : Clocked) (inp : PinIn), inp.rst = true →
    ∃ q, p.tick c inp = .next q ∧ q.inFlight = none ∧ q.block.tabS = c.sReset ∧ q.block.tabP = c.pReset ∧
      q.block.sState = .uninit ∧ q.block.pState = .uninit ∧ q.block.sErrInfo = 0 ∧ q.block.sErrVal = 0 ∧
      q.block.pErrInfo = 0 ∧ q.block.pErrVal = 0 ∧ q.block.responses = p.block.responses)

/-- R24: the forward tables hold the configuration's parameters at reset, by default the two scenario tables. -/
def Obligations.ResetTables : Prop :=
  (∀ c : Config, (State.resetWith c).tabS = c.sReset ∧ (State.resetWith c).tabP = c.pReset) ∧
  State.reset.tabS = #v[0xE, 0x4, 0xD, 0x1, 0x2, 0xF, 0xB, 0x8, 0x3, 0xA, 0x6, 0xC, 0x5, 0x9, 0x0, 0x7] ∧
  State.reset.tabP = #v[1, 5, 2, 0, 3, 7, 4, 6]

/-- R25: the engines are `UNINIT` and the records zero at reset; and what `IS` holds while the S engine is not `READY`,
and `IP` while the P engine is not, cannot be observed: no run answers differently for other contents, from any state.
The zeros the model holds in them at reset (log entry 1) are thereby no claim about the hardware. -/
def Obligations.InverseTablesUnobservableUnlessReady : Prop :=
  (∀ c : Config, (State.resetWith c).sState = .uninit ∧ (State.resetWith c).pState = .uninit ∧
    (State.resetWith c).sErrInfo = 0 ∧ (State.resetWith c).sErrVal = 0 ∧
    (State.resetWith c).pErrInfo = 0 ∧ (State.resetWith c).pErrVal = 0) ∧
  ∀ (c : Config) (s : State) (k : Nat) (is : Vector Nibble 16) (ip : Vector BitPos 8),
    (s.sState = .ready → is = s.tabIS) → (s.pState = .ready → ip = s.tabIP) →
    ∃ t u : State,
      runWith c k s = .next t ∧ runWith c k { s with tabIS := is, tabIP := ip } = .next u ∧
      u.responses = t.responses

/-- R101, R95: the status of every command word in every state: decode first, then the engine-state check of R95, then,
for `INIS` and `INIP` alone, the validation of the table, which reports the first offending entry, else `OK`. -/
def Obligations.StatusFollowsOrderOfChecks : Prop :=
  ∀ (w : CmdWord) (s : State), ∃ (u : State) (st : Status) (d : Byte),
    executeWord w s = .next { u with responses := s.responses ++ [⟨st, d⟩] } ∧
    (ReservedWord w → st = .illegalCmd) ∧
    (∀ i, decode w = .command i → ∀ r, stateRefusal i s = some r → st = r) ∧
    (∀ i, decode w = .command i → stateRefusal i s = none →
      (i = .inis → (IsBijection s.tabS → st = .ok) ∧
        (¬ IsBijection s.tabS → st = .configError ∧
          ∃ k j, FirstOffender s.tabS k j ∧ d = errInfo .substitution k (nibbleOfIdx j))) ∧
      (i = .inip → (IsBijection s.tabP → st = .ok) ∧
        (¬ IsBijection s.tabP → st = .configError ∧
          ∃ k j, FirstOffender s.tabP k j ∧ d = errInfo .permutation k (nibbleOfIdx j))) ∧
      (i ≠ .inis → i ≠ .inip → st = .ok))

/-- R103: a command word answered `NOT_READY`, `LOCKED` or `ILLEGAL_CMD` leaves the state as it was, with one response
of data `0x00` more. -/
def Obligations.RefusalsLeaveNoTrace : Prop :=
  ∀ (w : CmdWord) (s t : State) (st : Status) (d : Byte),
    executeWord w s = .next t → t.responses = s.responses ++ [⟨st, d⟩] →
    st = .notReady ∨ st = .locked ∨ st = .illegalCmd →
    d = 0 ∧ t = { s with responses := s.responses ++ [⟨st, 0⟩] }

/-! Pins (30_encoding.md, section 1; the reading of log entries 4 to 6) -/

/-- R47, R48, R125: from the edge that accepts a command, with no reset, `cmd_ready` is 0 and `rsp_valid` is 1 in exactly
the cycle that ends `LAT` edges later, with `rsp` the word of the response; `LAT` is at least 1 and bounded; at the edge
that ends that cycle the command has taken effect. Which edge counts as the `LAT`-th is the model's reading (log
entry 4); that the block's state is that of before until that edge, and the command's result from it on, is the model's
choice (log entry 6). -/
def Obligations.AcceptedCommandAnsweredAfterLatency : Prop :=
  ∀ (c : Config) (p : Clocked) (w : CmdWord) (first : PinIn) (later : List PinIn),
    p.inFlight = none → first.rst = false → first.cmdValid = true → first.cmd = w →
    (∀ x ∈ later, x.rst = false) → later.length < latency p.accepted w p.block →
    (p.out first).cmdReady = true ∧ 1 ≤ latency p.accepted w p.block ∧
    latency p.accepted w p.block ≤ Config.latencyBound + 1 ∧
    ∃ q, p.run c (first :: later) = .next q ∧ q.block = p.block ∧
      ∀ x : PinIn, x.rst = false →
        (q.out x).cmdReady = false ∧
        ((q.out x).rspValid = true ↔ later.length + 1 = latency p.accepted w p.block) ∧
        (later.length + 1 = latency p.accepted w p.block →
          ∃ t r, executeWord w p.block = .next t ∧ t.responses = p.block.responses ++ [r] ∧
            (q.out x).rsp = r.word ∧
            ∃ q', q.tick c x = .next q' ∧ q'.block = t ∧ q'.inFlight = none)

/-- R29, R37, R116: every clock edge answers a next state, and the block's state at the pins changes only by a whole
reset or by one whole transaction: nothing half done is ever seen. That a reset at the very edge that would give a
response still abandons it, and that a command takes effect at that edge, are the model's reading (log entry 6). -/
def Obligations.ClockEdgesRefineTransactions : Prop :=
  ∀ (c : Config) (p : Clocked) (inp : PinIn), ∃ q, p.tick c inp = .next q ∧
    ((inp.rst = true ∧ (p.out inp).rspValid = false ∧ q.block = p.block.applyReset c) ∨
     (inp.rst = false ∧ (p.out inp).rspValid = false ∧ q.block = p.block) ∨
     (inp.rst = false ∧ (p.out inp).rspValid = true ∧
      ∃ f, p.inFlight = some f ∧ executeWord f.word p.block = .next q.block))

/-! The three functions (40_substitution.md, 41_permutation.md, 42_table_init.md) -/

/-- R63: `SubByte` looks each nibble up on its own and puts it back in its place, for tables of 8-bit and of 4-bit
entries; on a table of entries less than 16 it is `(T[b >> 4] << 4) | T[b & 0xF]`. -/
def Obligations.SubByteLooksUpEachNibble : Prop :=
  (∀ (ew : Nat) (t : Vector (BitVec ew) 16) (b : Byte),
    (subByte b t).extractLsb' 4 4 = (t[(b.extractLsb' 4 4).toNat]'(b.extractLsb' 4 4).isLt).extractLsb' 0 4 ∧
    (subByte b t).extractLsb' 0 4 = (t[(b.extractLsb' 0 4).toNat]'(b.extractLsb' 0 4).isLt).extractLsb' 0 4) ∧
  (∀ (t : Vector Byte 16) (b : Byte), (∀ i : Nibble, (entry16 t i).toNat < 16) →
    subByte b t = (entry16 t ((b >>> 4).setWidth 4) <<< 4) ||| entry16 t ((b &&& 0xF).setWidth 4))

/-- R70: output bit `i` of `PermByte` is input bit `T[i][2:0]`, a gather; on a table of entries less than 8 it is the OR
over `i` of `((b >> T[i]) & 1) << i`. -/
def Obligations.PermByteGathersBits : Prop :=
  (∀ (ew : Nat) (t : Vector (BitVec ew) 8) (b : Byte) (i : BitPos),
    (permByte b t).getLsbD i.toNat = b.getLsbD ((t[i.toNat]'i.isLt).extractLsb' 0 3).toNat) ∧
  (∀ (t : Vector Byte 8) (b : Byte), (∀ i : BitPos, (entry8 t i).toNat < 8) →
    permByte b t =
      ((b >>> (entry8 t 0).toNat &&& 1) <<< 0) ||| ((b >>> (entry8 t 1).toNat &&& 1) <<< 1) |||
      ((b >>> (entry8 t 2).toNat &&& 1) <<< 2) ||| ((b >>> (entry8 t 3).toNat &&& 1) <<< 3) |||
      ((b >>> (entry8 t 4).toNat &&& 1) <<< 4) ||| ((b >>> (entry8 t 5).toNat &&& 1) <<< 5) |||
      ((b >>> (entry8 t 6).toNat &&& 1) <<< 6) ||| ((b >>> (entry8 t 7).toNat &&& 1) <<< 7))

/-- R77: `InvertTable` returns an error exactly when some entry offends, names the first one in ascending order with its
value, `RANGE` before `DUPLICATE`; and returns `Ok(inv)` exactly when every entry is in range and `inv` undoes them. -/
def Obligations.InvertTableReportsFirstOffender : Prop :=
  (∀ (n : Nat) (t : Vector Byte n) (c : Cause) (i : Fin n) (v : Byte),
    invertTable t = .err c i v ↔ FirstOffender t c i ∧ v = t.get i) ∧
  (∀ (n : Nat) (t : Vector Byte n) (inv : Vector (Fin n) n),
    invertTable t = .ok inv ↔ ∀ i : Fin n, ∃ h : (t.get i).toNat < n, inv.get ⟨(t.get i).toNat, h⟩ = i)

/-- R78: `InvertTable` succeeds exactly on the bijections. -/
def Obligations.InvertTableAcceptsExactlyBijections : Prop :=
  ∀ (n : Nat) (t : Vector Byte n), (∃ inv, invertTable t = .ok inv) ↔ IsBijection t

/-- R79: an inverse table undoes its table on both sides, is itself a bijection, and its own inverse is the table again
(an entry of 8 bits names every index when `n` is at most 256). -/
def Obligations.DoubleInverseIsTheTable : Prop :=
  ∀ (n : Nat) (t : Vector Byte n) (inv : Vector (Fin n) n), n ≤ 256 → invertTable t = .ok inv →
    (∀ i : Fin n, ∃ h : (t.get i).toNat < n, inv.get ⟨(t.get i).toNat, h⟩ = i) ∧
    (∀ j : Fin n, (t.get (inv.get j)).toNat = j.val) ∧
    IsBijection (widenTable inv) ∧
    ∃ back, invertTable (widenTable inv) = .ok back ∧ ∀ i : Fin n, (back.get i).val = (t.get i).toNat

/-! The commands, one by one -/

/-- R65: `SUBF b`. -/
def Obligations.SubfSubstitutesForward : Prop :=
  (∀ b : Byte, encode (.subf b) = 0x1000#16 ||| b.setWidth 16) ∧
  (∀ (b : Byte) (s : State), s.sState = .ready →
    exec (.subf b) s = .next { s with responses := s.responses ++ [⟨.ok, subByte b s.tabS⟩] }) ∧
  (∀ (b : Byte) (s : State), s.sState ≠ .ready →
    exec (.subf b) s = .next { s with responses := s.responses ++ [⟨.notReady, 0⟩] }) ∧
  (∀ (idx : Nibble) (b : Byte) (s : State), idx ≠ 0 →
    executeWord (cmdWord 0x1 idx b) s = .next { s with responses := s.responses ++ [⟨.illegalCmd, 0⟩] }) ∧
  (∀ (n : Nibble) (s : State), subByte (n ++ n : BitVec 8) s.tabS =
    ((s.readS n).extractLsb' 0 4 ++ (s.readS n).extractLsb' 0 4 : BitVec 8)) ∧
  (∀ s : State, s.Inv → s.sState = .ready → ∀ n : Nibble, (s.readS n).toNat < 16) ∧
  subByte 0xB3 Config.thisHardware.sReset = 0xC1

/-- R66: `SUBI b`. -/
def Obligations.SubiSubstitutesInverse : Prop :=
  (∀ b : Byte, encode (.subi b) = 0x2000#16 ||| b.setWidth 16) ∧
  (∀ (b : Byte) (s : State), s.sState = .ready →
    exec (.subi b) s = .next { s with responses := s.responses ++ [⟨.ok, subByte b s.tabIS⟩] }) ∧
  (∀ (b : Byte) (s : State), s.sState ≠ .ready →
    exec (.subi b) s = .next { s with responses := s.responses ++ [⟨.notReady, 0⟩] }) ∧
  (∀ (idx : Nibble) (b : Byte) (s : State), idx ≠ 0 →
    executeWord (cmdWord 0x2 idx b) s = .next { s with responses := s.responses ++ [⟨.illegalCmd, 0⟩] }) ∧
  (∀ (n : Nibble) (s : State), subByte (n ++ n : BitVec 8) s.tabIS = (s.readIS n ++ s.readIS n : BitVec 8)) ∧
  (∀ t, exec .inis State.reset = .next t → subByte 0xC1 t.tabIS = 0xB3)

/-- R72: `PRMF b`. -/
def Obligations.PrmfPermutesForward : Prop :=
  (∀ b : Byte, encode (.prmf b) = 0x3000#16 ||| b.setWidth 16) ∧
  (∀ (b : Byte) (s : State), s.pState = .ready →
    exec (.prmf b) s = .next { s with responses := s.responses ++ [⟨.ok, permByte b s.tabP⟩] }) ∧
  (∀ (b : Byte) (s : State), s.pState ≠ .ready →
    exec (.prmf b) s = .next { s with responses := s.responses ++ [⟨.notReady, 0⟩] }) ∧
  (∀ (idx : Nibble) (b : Byte) (s : State), idx ≠ 0 →
    executeWord (cmdWord 0x3 idx b) s = .next { s with responses := s.responses ++ [⟨.illegalCmd, 0⟩] }) ∧
  (∀ s : State, s.Inv → s.pState = .ready →
    permByte 0x00 s.tabP = 0x00 ∧ permByte 0xFF s.tabP = 0xFF ∧
    (∀ b : Byte, onesCount (permByte b s.tabP) = onesCount b) ∧
    (∀ k : BitPos, permByte (1#8 <<< k.toNat) s.tabP = 1#8 <<< (s.readIP k).toNat) ∧
    ∀ i : BitPos, (s.readP i).toNat < 8) ∧
  permByte 0xB3 Config.thisHardware.pReset = 0x6B

/-- R73: `PRMI b`. -/
def Obligations.PrmiPermutesInverse : Prop :=
  (∀ b : Byte, encode (.prmi b) = 0x4000#16 ||| b.setWidth 16) ∧
  (∀ (b : Byte) (s : State), s.pState = .ready →
    exec (.prmi b) s = .next { s with responses := s.responses ++ [⟨.ok, permByte b s.tabIP⟩] }) ∧
  (∀ (b : Byte) (s : State), s.pState ≠ .ready →
    exec (.prmi b) s = .next { s with responses := s.responses ++ [⟨.notReady, 0⟩] }) ∧
  (∀ (idx : Nibble) (b : Byte) (s : State), idx ≠ 0 →
    executeWord (cmdWord 0x4 idx b) s = .next { s with responses := s.responses ++ [⟨.illegalCmd, 0⟩] }) ∧
  (∀ s : State, s.Inv → s.pState = .ready →
    permByte 0x00 s.tabIP = 0x00 ∧ permByte 0xFF s.tabIP = 0xFF ∧
    (∀ b : Byte, onesCount (permByte b s.tabIP) = onesCount b) ∧
    ∀ k : BitPos, permByte (1#8 <<< k.toNat) s.tabIP = 1#8 <<< (s.readP k).toNat) ∧
  (∀ t, exec .inip State.reset = .next t → permByte 0x6B t.tabIP = 0xB3)

/-- R88: `WRS i, v`; any byte is stored, a second write of the entry wins, and a value of 16 or more makes the later
`INIS` fail, with `RANGE` at that entry when no entry below it offends. -/
def Obligations.WrsWritesOneEntry : Prop :=
  (∀ (i : Nibble) (v : Byte), encode (.wrs i v) = 0x5000#16 ||| (i.setWidth 16 <<< 8) ||| v.setWidth 16) ∧
  (∀ (i : Nibble) (v : Byte), decode (cmdWord 0x5 i v) = .command (.wrs i v)) ∧
  (∀ (i : Nibble) (v : Byte) (s : State), s.sState = .uninit → ∃ t, exec (.wrs i v) s = .next t ∧
    t = { s with tabS := t.tabS, responses := s.responses ++ [⟨.ok, 0⟩] } ∧
    t.readS i = v ∧ (∀ j : Nibble, j ≠ i → t.readS j = s.readS j) ∧
    ∀ v' : Byte, ∃ u, exec (.wrs i v') t = .next u ∧ u.readS i = v') ∧
  (∀ (i : Nibble) (v : Byte) (s : State), s.sState ≠ .uninit →
    exec (.wrs i v) s = .next { s with responses := s.responses ++ [⟨.locked, 0⟩] }) ∧
  (∀ (i : Nibble) (v : Byte) (s t : State), s.sState = .uninit → 16 ≤ v.toNat → exec (.wrs i v) s = .next t →
    (∃ k j x, invertTable t.tabS = .err k j x) ∧
    ((∀ j : Nibble, j < i → (s.readS j).toNat < 16 ∧ ∀ k : Nibble, k < j → s.readS k ≠ s.readS j) →
      invertTable t.tabS = .err .range (idx16 i) v)) ∧
  (∃ t, executeWord 0x5301 State.reset = .next t ∧ t.tabS = State.reset.tabS ∧ t.responses = [⟨.ok, 0⟩]) ∧
  (∀ t, exec .inis State.reset = .next t →
    executeWord 0x5301 t = .next { t with responses := t.responses ++ [⟨.locked, 0⟩] })

/-- R89: `WRP i, v`; a value of 8 or more makes the later `INIP` fail, with `RANGE` at that entry when no entry below it
offends; an index of 8 or more spells no command, whatever `P_STATE` is. -/
def Obligations.WrpWritesOneEntry : Prop :=
  (∀ (i : BitPos) (v : Byte), encode (.wrp i v) = 0x6000#16 ||| (i.setWidth 16 <<< 8) ||| v.setWidth 16) ∧
  (∀ (i : BitPos) (v : Byte) (s : State), s.pState = .uninit → ∃ t, exec (.wrp i v) s = .next t ∧
    t = { s with tabP := t.tabP, responses := s.responses ++ [⟨.ok, 0⟩] } ∧
    t.readP i = v ∧ ∀ j : BitPos, j ≠ i → t.readP j = s.readP j) ∧
  (∀ (i : BitPos) (v : Byte) (s : State), s.pState ≠ .uninit →
    exec (.wrp i v) s = .next { s with responses := s.responses ++ [⟨.locked, 0⟩] }) ∧
  (∀ (i : BitPos) (v : Byte) (s t : State), s.pState = .uninit → 8 ≤ v.toNat → exec (.wrp i v) s = .next t →
    (∃ k j x, invertTable t.tabP = .err k j x) ∧
    ((∀ j : BitPos, j < i → (s.readP j).toNat < 8 ∧ ∀ k : BitPos, k < j → s.readP k ≠ s.readP j) →
      invertTable t.tabP = .err .range (idx8 i) v)) ∧
  (∀ (idx : Nibble) (v : Byte) (s : State), 8 ≤ idx.toNat →
    executeWord (cmdWord 0x6 idx v) s = .next { s with responses := s.responses ++ [⟨.illegalCmd, 0⟩] }) ∧
  (∃ t, executeWord 0x6706 State.reset = .next t ∧ t.readP 7 = 6 ∧ t.responses = [⟨.ok, 0⟩])

/-- R82, R81: `INIS`, its three outcomes with all that each writes, and the corner cases and the example of the rule. -/
def Obligations.InisValidatesAndDerives : Prop :=
  encode .inis = 0x7000 ∧
  (∀ (idx : Nibble) (d : Byte) (s : State), idx ≠ 0 ∨ d ≠ 0 →
    executeWord (cmdWord 0x7 idx d) s = .next { s with responses := s.responses ++ [⟨.illegalCmd, 0⟩] }) ∧
  (∀ s : State, s.sState ≠ .uninit →
    exec .inis s = .next { s with responses := s.responses ++ [⟨.locked, 0⟩] }) ∧
  (∀ (s : State) (inv : Vector (Fin 16) 16), s.sState = .uninit → invertTable s.tabS = .ok inv →
    ∃ t, exec .inis s = .next t ∧
      t = { s with tabIS := t.tabIS, sState := .ready, responses := s.responses ++ [⟨.ok, 0⟩] } ∧
      ∀ j : Nibble, (t.readIS j).toNat = (inv[j.toNat]'j.isLt).val) ∧
  (∀ (s : State) (c : Cause) (i : Fin 16) (v : Byte), s.sState = .uninit → invertTable s.tabS = .err c i v →
    exec .inis s = .next { s with
      sErrInfo := 0#1 ++ 0#1 ++ c.code ++ nibbleOfIdx i
      sErrVal := v
      sState := .failed
      responses := s.responses ++ [⟨.configError, 0#1 ++ 0#1 ++ c.code ++ nibbleOfIdx i⟩] }) ∧
  (∀ s : State, s.sState = .uninit → (IsBijection s.tabS ↔ ∃ inv, invertTable s.tabS = .ok inv)) ∧
  (∀ s : State, s.sState = .failed →
    (∀ i v, exec (.wrs i v) s = .next { s with responses := s.responses ++ [⟨.locked, 0⟩] }) ∧
    (∀ b, exec (.subf b) s = .next { s with responses := s.responses ++ [⟨.notReady, 0⟩] }) ∧
    (∀ b, exec (.subi b) s = .next { s with responses := s.responses ++ [⟨.notReady, 0⟩] }) ∧
    (∀ i, exec (.rdis i) s = .next { s with responses := s.responses ++ [⟨.notReady, 0⟩] }) ∧
    ∀ w t, executeWord w s = .next t → t.sState = .failed) ∧
  (∀ s t : State, s.sState = .uninit → (∀ i : Nibble, (s.readS i).toNat = i.toNat) → exec .inis s = .next t →
    t.sState = .ready ∧ ∀ i : Nibble, t.readIS i = i) ∧
  (∀ s : State, s.readS 0 = 0x10 → invertTable s.tabS = .err .range 0 0x10) ∧
  (∀ s : State, (∀ i : Nibble, i < 15 → (s.readS i).toNat < 16 ∧ ∀ j : Nibble, j < i → s.readS j ≠ s.readS i) →
    s.readS 15 = s.readS 14 → invertTable s.tabS = .err .duplicate 15 (s.readS 14)) ∧
  (∃ t, exec .inis State.reset = .next t ∧ t.sState = .ready ∧ t.responses = [⟨.ok, 0⟩] ∧
    t.tabIS = #v[0xE, 0x3, 0x4, 0x8, 0x1, 0xC, 0xA, 0xF, 0x7, 0xD, 0x9, 0x6, 0xB, 0x2, 0x0, 0x5])

/-- R84: `INIP`, its three outcomes with all that each writes, and the corner cases and the example of the rule. -/
def Obligations.InipValidatesAndDerives : Prop :=
  encode .inip = 0x8000 ∧
  (∀ (idx : Nibble) (d : Byte) (s : State), idx ≠ 0 ∨ d ≠ 0 →
    executeWord (cmdWord 0x8 idx d) s = .next { s with responses := s.responses ++ [⟨.illegalCmd, 0⟩] }) ∧
  (∀ s : State, s.pState ≠ .uninit →
    exec .inip s = .next { s with responses := s.responses ++ [⟨.locked, 0⟩] }) ∧
  (∀ (s : State) (inv : Vector (Fin 8) 8), s.pState = .uninit → invertTable s.tabP = .ok inv →
    ∃ t, exec .inip s = .next t ∧
      t = { s with tabIP := t.tabIP, pState := .ready, responses := s.responses ++ [⟨.ok, 0⟩] } ∧
      ∀ j : BitPos, (t.readIP j).toNat = (inv[j.toNat]'j.isLt).val) ∧
  (∀ (s : State) (c : Cause) (i : Fin 8) (v : Byte), s.pState = .uninit → invertTable s.tabP = .err c i v →
    exec .inip s = .next { s with
      pErrInfo := 0#1 ++ 1#1 ++ c.code ++ nibbleOfIdx i
      pErrVal := v
      pState := .failed
      responses := s.responses ++ [⟨.configError, 0#1 ++ 1#1 ++ c.code ++ nibbleOfIdx i⟩] }) ∧
  (∀ s : State, s.pState = .uninit → (IsBijection s.tabP ↔ ∃ inv, invertTable s.tabP = .ok inv)) ∧
  (∀ (s : State) (i : BitPos), s.readP i = 0x08 ∨ s.readP i = 0xFF → ¬ IsBijection s.tabP) ∧
  (∀ s t : State, s.pState = .uninit → (∀ i : BitPos, (s.readP i).toNat = i.toNat) → exec .inip s = .next t →
    (∀ i : BitPos, t.readIP i = i) ∧ ∀ b : Byte, permByte b t.tabP = b ∧ permByte b t.tabIP = b) ∧
  invertTable (#v[7, 6, 5, 4, 3, 2, 1, 0] : Vector Byte 8) = .ok #v[7, 6, 5, 4, 3, 2, 1, 0] ∧
  (∃ t, exec .inip State.reset = .next t ∧ t.pState = .ready ∧ t.responses = [⟨.ok, 0⟩] ∧
    t.tabIP = #v[3, 0, 2, 4, 6, 1, 7, 5])

/-- R91: `RDS i`, in every engine state; in `FAILED` it reads back the value of the error record. -/
def Obligations.RdsReadsForwardTable : Prop :=
  (∀ i : Nibble, encode (.rds i) = 0x9000#16 ||| (i.setWidth 16 <<< 8)) ∧
  (∀ (i : Nibble) (s : State),
    exec (.rds i) s = .next { s with responses := s.responses ++ [⟨.ok, s.tabS[i.toNat]'i.isLt⟩] }) ∧
  (∀ (i : Nibble) (d : Byte) (s : State), d ≠ 0 →
    executeWord (cmdWord 0x9 i d) s = .next { s with responses := s.responses ++ [⟨.illegalCmd, 0⟩] }) ∧
  (∀ s : State, s.Inv → s.sState = .failed → s.readS (s.sErrInfo.extractLsb' 0 4) = s.sErrVal) ∧
  (∃ t, executeWord 0x5FFF State.reset = .next t ∧ t.sState = .uninit ∧
    executeWord 0x9F00 t = .next { t with responses := t.responses ++ [⟨.ok, 0xFF⟩] }) ∧
  executeWord 0x9B00 State.reset = .next { State.reset with responses := [⟨.ok, 0x0C⟩] }

/-- R92: `RDIS i`. -/
def Obligations.RdisReadsInverseTable : Prop :=
  (∀ i : Nibble, encode (.rdis i) = 0xA000#16 ||| (i.setWidth 16 <<< 8)) ∧
  (∀ (i : Nibble) (s : State), s.sState = .ready →
    exec (.rdis i) s = .next { s with
      responses := s.responses ++ [⟨.ok, 0#4 ++ (s.tabIS[i.toNat]'i.isLt : BitVec 4)⟩] }) ∧
  (∀ (i : Nibble) (s : State), s.sState ≠ .ready →
    exec (.rdis i) s = .next { s with responses := s.responses ++ [⟨.notReady, 0⟩] }) ∧
  (∀ (i : Nibble) (d : Byte) (s : State), d ≠ 0 →
    executeWord (cmdWord 0xA i d) s = .next { s with responses := s.responses ++ [⟨.illegalCmd, 0⟩] }) ∧
  (∀ v : Nibble, (0#4 ++ v : BitVec 8).toNat < 16) ∧
  (∀ t, exec .inis State.reset = .next t →
    executeWord 0xAC00 t = .next { t with responses := t.responses ++ [⟨.ok, 0x0B⟩] })

/-- R93: `RDP i`, in every engine state. -/
def Obligations.RdpReadsForwardTable : Prop :=
  (∀ i : BitPos, encode (.rdp i) = 0xB000#16 ||| (i.setWidth 16 <<< 8)) ∧
  (∀ (i : BitPos) (s : State),
    exec (.rdp i) s = .next { s with responses := s.responses ++ [⟨.ok, s.tabP[i.toNat]'i.isLt⟩] }) ∧
  (∀ (idx : Nibble) (d : Byte) (s : State), 8 ≤ idx.toNat ∨ d ≠ 0 →
    executeWord (cmdWord 0xB idx d) s = .next { s with responses := s.responses ++ [⟨.illegalCmd, 0⟩] }) ∧
  (∀ s : State, s.Inv → s.pState = .failed → s.readP (s.pErrInfo.extractLsb' 0 3) = s.pErrVal) ∧
  (∃ t, executeWord 0x67FF State.reset = .next t ∧ t.pState = .uninit ∧
    executeWord 0xB700 t = .next { t with responses := t.responses ++ [⟨.ok, 0xFF⟩] }) ∧
  executeWord 0xB100 State.reset = .next { State.reset with responses := [⟨.ok, 0x05⟩] }

/-- R94: `RDIP i`. -/
def Obligations.RdipReadsInverseTable : Prop :=
  (∀ i : BitPos, encode (.rdip i) = 0xC000#16 ||| (i.setWidth 16 <<< 8)) ∧
  (∀ (i : BitPos) (s : State), s.pState = .ready →
    exec (.rdip i) s = .next { s with
      responses := s.responses ++ [⟨.ok, 0#5 ++ (s.tabIP[i.toNat]'i.isLt : BitVec 3)⟩] }) ∧
  (∀ (i : BitPos) (s : State), s.pState ≠ .ready →
    exec (.rdip i) s = .next { s with responses := s.responses ++ [⟨.notReady, 0⟩] }) ∧
  (∀ (idx : Nibble) (d : Byte) (s : State), 8 ≤ idx.toNat ∨ d ≠ 0 →
    executeWord (cmdWord 0xC idx d) s = .next { s with responses := s.responses ++ [⟨.illegalCmd, 0⟩] }) ∧
  (∀ v : BitPos, (0#5 ++ v : BitVec 8).toNat < 8) ∧
  (∀ t, exec .inip State.reset = .next t →
    executeWord 0xC500 t = .next { t with responses := t.responses ++ [⟨.ok, 0x01⟩] })

/-- R96, R23: `RDST r`, the five status registers in every engine state, and no other; reading clears nothing. -/
def Obligations.RdstReadsStatusRegisters : Prop :=
  (∀ r : Nibble, encode (.rdst r) = 0xD000#16 ||| (r.setWidth 16 <<< 8)) ∧
  (∀ s : State,
    exec (.rdst 0) s = .next { s with
      responses := s.responses ++ [⟨.ok, 0#4 ++ s.pState.code ++ s.sState.code⟩] } ∧
    exec (.rdst 1) s = .next { s with responses := s.responses ++ [⟨.ok, s.sErrInfo⟩] } ∧
    exec (.rdst 2) s = .next { s with responses := s.responses ++ [⟨.ok, s.sErrVal⟩] } ∧
    exec (.rdst 3) s = .next { s with responses := s.responses ++ [⟨.ok, s.pErrInfo⟩] } ∧
    exec (.rdst 4) s = .next { s with responses := s.responses ++ [⟨.ok, s.pErrVal⟩] }) ∧
  (∀ (r : Nibble) (d : Byte) (s : State), 5 ≤ r.toNat ∨ d ≠ 0 →
    executeWord (cmdWord 0xD r d) s = .next { s with responses := s.responses ++ [⟨.illegalCmd, 0⟩] }) ∧
  (∀ r : Nibble, r.toNat ≤ 4 →
    executeWord (cmdWord 0xD r 0) State.reset = .next { State.reset with responses := [⟨.ok, 0⟩] }) ∧
  (∀ s : State, (0#4 ++ s.pState.code ++ s.sState.code : BitVec 8) ∈
    [0x00#8, 0x01#8, 0x02#8, 0x04#8, 0x05#8, 0x06#8, 0x08#8, 0x09#8, 0x0A#8]) ∧
  (∀ t, exec .inis State.reset = .next t →
    executeWord 0xD000 t = .next { t with responses := t.responses ++ [⟨.ok, 0x01⟩] })

/-! Frames -/

/-- R38, R64, R71: the four transforms and the five reads change no register, and each repeated gives the same response
again. -/
def Obligations.ReadingCommandsChangeNothing : Prop :=
  ∀ (i : Instr) (s : State), i.onlyReads = true →
    ∃ r, exec i s = .next { s with responses := s.responses ++ [r] } ∧
      exec i { s with responses := s.responses ++ [r] } = .next { s with responses := s.responses ++ [r] ++ [r] }

/-- The frames of `WRS`, `WRP`, `INIS` and `INIP` (R82, R84, R88, R89, R90), on every path: what each leaves unchanged
whenever it answers a next state. -/
def Obligations.WritingCommandsFrame : Prop :=
  ∀ s t : State,
    (∀ i v, exec (.wrs i v) s = .next t → s.SamePerm t ∧ t.inputs = s.inputs ∧ t.tabIS = s.tabIS ∧
      t.sState = s.sState ∧ t.sErrInfo = s.sErrInfo ∧ t.sErrVal = s.sErrVal ∧
      ∀ j : Nibble, j ≠ i → t.readS j = s.readS j) ∧
    (∀ i v, exec (.wrp i v) s = .next t → s.SameSub t ∧ t.inputs = s.inputs ∧ t.tabIP = s.tabIP ∧
      t.pState = s.pState ∧ t.pErrInfo = s.pErrInfo ∧ t.pErrVal = s.pErrVal ∧
      ∀ j : BitPos, j ≠ i → t.readP j = s.readP j) ∧
    (exec .inis s = .next t → s.SamePerm t ∧ t.inputs = s.inputs ∧ t.tabS = s.tabS ∧
      (t.sState ≠ .ready ∨ s.sState = .ready → t.tabIS = s.tabIS) ∧
      (t.sState ≠ .failed ∨ s.sState = .failed → t.sErrInfo = s.sErrInfo ∧ t.sErrVal = s.sErrVal)) ∧
    (exec .inip s = .next t → s.SameSub t ∧ t.inputs = s.inputs ∧ t.tabP = s.tabP ∧
      (t.pState ≠ .ready ∨ s.pState = .ready → t.tabIP = s.tabIP) ∧
      (t.pState ≠ .failed ∨ s.pState = .failed → t.pErrInfo = s.pErrInfo ∧ t.pErrVal = s.pErrVal))

/-- R31, R40, R121: a written entry is what the very next read of it returns. -/
def Obligations.WriteIsSeenByNextRead : Prop :=
  (∀ (i : Nibble) (v : Byte) (s : State), s.sState = .uninit →
    ∃ t, exec (.wrs i v) s = .next t ∧
      exec (.rds i) t = .next { t with responses := t.responses ++ [⟨.ok, v⟩] }) ∧
  (∀ (i : BitPos) (v : Byte) (s : State), s.pState = .uninit →
    ∃ t, exec (.wrp i v) s = .next t ∧
      exec (.rdp i) t = .next { t with responses := t.responses ++ [⟨.ok, v⟩] })

/-! Life cycle, invariants and isolation (10_state.md) -/

/-- R18, R115: the codes of an engine's state and its only transitions: reset to `UNINIT`; from `UNINIT`, to `READY` by a
successful and to `FAILED` by a failing initialisation. -/
def Obligations.EngineStateTransitions : Prop :=
  EngineState.uninit.code = 0 ∧ EngineState.ready.code = 1 ∧ EngineState.failed.code = 2 ∧
  ∀ (c : Config) (s t : State), stepWith c s = .next t →
    ((∃ rest, s.inputs = .reset :: rest) ∧ t.sState = .uninit ∧ t.pState = .uninit) ∨
    ((t.sState = s.sState ∨
       (∃ w rest, s.inputs = .command w :: rest ∧ decode w = .command .inis) ∧ s.sState = .uninit ∧
       ((t.sState = .ready ∧ ∃ inv, invertTable s.tabS = .ok inv) ∨
        (t.sState = .failed ∧ ∃ k i v, invertTable s.tabS = .err k i v))) ∧
     (t.pState = s.pState ∨
       (∃ w rest, s.inputs = .command w :: rest ∧ decode w = .command .inip) ∧ s.pState = .uninit ∧
       ((t.pState = .ready ∧ ∃ inv, invertTable s.tabP = .ok inv) ∨
        (t.pState = .failed ∧ ∃ k i v, invertTable s.tabP = .err k i v))))

/-- R30: what may write each table, a reset apart; and that a `READY` engine's tables do not change. -/
def Obligations.TablesImmutableOnceReady : Prop :=
  ∀ (w : CmdWord) (s t : State), executeWord w s = .next t →
    (t.tabS = s.tabS ∨ s.sState = .uninit ∧ ∃ i v, decode w = .command (.wrs i v)) ∧
    (t.tabP = s.tabP ∨ s.pState = .uninit ∧ ∃ i v, decode w = .command (.wrp i v)) ∧
    (t.tabIS = s.tabIS ∨ decode w = .command .inis ∧ s.sState = .uninit ∧ t.sState = .ready) ∧
    (t.tabIP = s.tabIP ∨ decode w = .command .inip ∧ s.pState = .uninit ∧ t.pState = .ready) ∧
    (s.sState = .ready → s.SameSub t) ∧ (s.pState = .ready → s.SamePerm t)

/-- The invariant holds at reset, for every configuration (R9: bijections or not) and whatever the host presents. -/
def Obligations.ResetMeetsTheInvariant : Prop :=
  ∀ (c : Config) (events : List HostEvent), State.Inv { State.resetWith c with inputs := events }

/-- Every step keeps the invariant (R19 to R22), from every state that has it and for every configuration: tables of a
`READY` engine are in range and undo each other; an error record is zero unless its engine is `FAILED`, and then names
an offending entry. -/
def Obligations.StepKeepsTheInvariant : Prop :=
  ∀ (c : Config) (s t : State), s.Inv → stepWith c s = .next t → t.Inv

/-- R19: in every reachable state of every configuration, the tables of a `READY` engine are in range, bijections, and
undo each other on both sides. -/
def Obligations.ReadyTablesAreMutualInverses : Prop :=
  ∀ (c : Config) (s : State), Reachable c s →
    (s.sState = .ready →
      (∀ i : Nibble, (s.readS i).toNat < 16) ∧ IsBijection s.tabS ∧
      (∀ i : Nibble, s.readIS ((s.readS i).extractLsb' 0 4) = i) ∧
      ∀ j : Nibble, s.readS (s.readIS j) = j.setWidth 8) ∧
    (s.pState = .ready →
      (∀ i : BitPos, (s.readP i).toNat < 8) ∧ IsBijection s.tabP ∧
      (∀ i : BitPos, s.readIP ((s.readP i).extractLsb' 0 3) = i) ∧
      ∀ j : BitPos, s.readP (s.readIP j) = j.setWidth 8)

/-- R20, R21: an error record is zero in every reachable state in which its engine has not failed; a command changes it
only by failing its initialisation, which writes both bytes; so it keeps its values until reset. -/
def Obligations.OnlyFailingInitWritesErrorRecord : Prop :=
  (∀ (c : Config) (s : State), Reachable c s →
    (s.sState ≠ .failed → s.sErrInfo = 0 ∧ s.sErrVal = 0) ∧ (s.pState ≠ .failed → s.pErrInfo = 0 ∧ s.pErrVal = 0)) ∧
  ∀ (w : CmdWord) (s t : State), executeWord w s = .next t →
    ((t.sErrInfo = s.sErrInfo ∧ t.sErrVal = s.sErrVal ∧
        ¬ (decode w = .command .inis ∧ s.sState = .uninit ∧ t.sState = .failed)) ∨
      (decode w = .command .inis ∧ s.sState = .uninit ∧ t.sState = .failed ∧
        ∃ k i v, invertTable s.tabS = .err k i v ∧
          t.sErrInfo = errInfo .substitution k (nibbleOfIdx i) ∧ t.sErrVal = v)) ∧
    ((t.pErrInfo = s.pErrInfo ∧ t.pErrVal = s.pErrVal ∧
        ¬ (decode w = .command .inip ∧ s.pState = .uninit ∧ t.pState = .failed)) ∨
      (decode w = .command .inip ∧ s.pState = .uninit ∧ t.pState = .failed ∧
        ∃ k i v, invertTable s.tabP = .err k i v ∧
          t.pErrInfo = errInfo .permutation k (nibbleOfIdx i) ∧ t.pErrVal = v))

/-- R22: the layout of `ERRINFO`, and, in every reachable state in which an engine has failed, that its record holds
that layout with the kind of its table, one of the two causes, and the index of an entry whose whole value is
`ERRVAL`. -/
def Obligations.ErrorRecordLayout : Prop :=
  (∀ (k : TableKind) (c : Cause) (i : Nibble),
    (errInfo k c i).extractLsb' 7 1 = 0 ∧ (errInfo k c i).extractLsb' 6 1 = k.code ∧
    (errInfo k c i).extractLsb' 4 2 = c.code ∧ (errInfo k c i).extractLsb' 0 4 = i) ∧
  TableKind.substitution.code = 0 ∧ TableKind.permutation.code = 1 ∧ Cause.range.code = 1 ∧ Cause.duplicate.code = 2 ∧
  ∀ (cfg : Config) (s : State), Reachable cfg s →
    (s.sState = .failed → ∃ c : Cause, s.sErrInfo = errInfo .substitution c (s.sErrInfo.extractLsb' 0 4) ∧
      s.sErrVal = s.readS (s.sErrInfo.extractLsb' 0 4)) ∧
    (s.pState = .failed → ∃ c : Cause, s.pErrInfo = errInfo .permutation c (s.pErrInfo.extractLsb' 0 4) ∧
      (s.pErrInfo.extractLsb' 0 4).toNat < 8 ∧ s.pErrVal = s.readP (s.pErrInfo.extractLsb' 0 3)) ∧
    (s.sState ≠ .failed → s.sErrInfo = 0 ∧ s.sErrVal = 0) ∧ (s.pState ≠ .failed → s.pErrInfo = 0 ∧ s.pErrVal = 0)

/-- R98: `CONFIG_ERROR` comes only from `INIS` and `INIP`, only on an `UNINIT` engine, only when `InvertTable` fails;
the response names the kind, the cause and the index, the record is written and the engine fails; no command leads
back out of `FAILED`, so it comes at most once per engine between two resets. -/
def Obligations.ConfigErrorOnlyFromInitialisation : Prop :=
  ∀ (w : CmdWord) (s t : State) (d : Byte),
    executeWord w s = .next t → t.responses = s.responses ++ [⟨.configError, d⟩] →
    (decode w = .command .inis ∧ s.sState = .uninit ∧ t.sState = .failed ∧
      ∃ k i v, invertTable s.tabS = .err k i v ∧ d = errInfo .substitution k (nibbleOfIdx i) ∧
        t.sErrInfo = d ∧ t.sErrVal = v ∧
        ∀ words u, runWords words t = .next u → u.sState = .failed) ∨
    (decode w = .command .inip ∧ s.pState = .uninit ∧ t.pState = .failed ∧
      ∃ k i v, invertTable s.tabP = .err k i v ∧ d = errInfo .permutation k (nibbleOfIdx i) ∧
        t.pErrInfo = d ∧ t.pErrVal = v ∧
        ∀ words u, runWords words t = .next u → u.pState = .failed)

/-- R44, R81, R120: whatever commands come in between, with no reset among them, the second `INIS` on an engine is
answered `LOCKED`, and so is the second `INIP`. -/
def Obligations.SecondInitialisationIsLocked : Prop :=
  ∀ (s t : State) (words : List CmdWord),
    (exec .inis s = .next t → ∃ u, runWords words t = .next u ∧ u.sState = t.sState ∧
      exec .inis u = .next { u with responses := u.responses ++ [⟨.locked, 0⟩] }) ∧
    (exec .inip s = .next t → ∃ u, runWords words t = .next u ∧ u.pState = t.pState ∧
      exec .inip u = .next { u with responses := u.responses ++ [⟨.locked, 0⟩] })

/-- R42: while an engine is `READY`, the response to its transforms is a function of the command word alone: whatever
commands come before it, with no reset among them. -/
def Obligations.ReadyResponseDependsOnWordAlone : Prop :=
  ∀ (s : State) (words : List CmdWord) (b : Byte),
    (s.sState = .ready → ∃ u, runWords words s = .next u ∧
      exec (.subf b) u = .next { u with responses := u.responses ++ [⟨.ok, subByte b s.tabS⟩] } ∧
      exec (.subi b) u = .next { u with responses := u.responses ++ [⟨.ok, subByte b s.tabIS⟩] }) ∧
    (s.pState = .ready → ∃ u, runWords words s = .next u ∧
      exec (.prmf b) u = .next { u with responses := u.responses ++ [⟨.ok, permByte b s.tabP⟩] } ∧
      exec (.prmi b) u = .next { u with responses := u.responses ++ [⟨.ok, permByte b s.tabIP⟩] })

/-- R18, R2: no command of one engine reads or writes anything of the other: from two states that agree on its own
engine it leaves two that agree on it and gives the same response, and it leaves the other engine as it was. -/
def Obligations.EnginesAreIndependent : Prop :=
  (∀ (i : Instr) (s u : State), i.usesSub = true → s.SameSub u →
    ∃ s' u' r, exec i s = .next s' ∧ exec i u = .next u' ∧ s'.SameSub u' ∧ s.SamePerm s' ∧ u.SamePerm u' ∧
      s'.responses = s.responses ++ [r] ∧ u'.responses = u.responses ++ [r]) ∧
  (∀ (i : Instr) (s u : State), i.usesPerm = true → s.SamePerm u →
    ∃ s' u' r, exec i s = .next s' ∧ exec i u = .next u' ∧ s'.SamePerm u' ∧ s.SameSub s' ∧ u.SameSub u' ∧
      s'.responses = s.responses ++ [r] ∧ u'.responses = u.responses ++ [r])

/-! Round trips (R67, R68, R74, R75) -/

/-- R67, R68: on a `READY` engine `SUBI` undoes `SUBF` and `SUBF` undoes `SUBI`, for all 256 bytes, and both maps are
bijections. -/
def Obligations.SubstitutionRoundTrip : Prop :=
  ∀ (s : State), s.Inv → s.sState = .ready →
    (∀ b c : Byte, exec (.subf b) s = .next { s with responses := s.responses ++ [⟨.ok, c⟩] } →
      exec (.subi c) s = .next { s with responses := s.responses ++ [⟨.ok, b⟩] }) ∧
    (∀ b c : Byte, exec (.subi b) s = .next { s with responses := s.responses ++ [⟨.ok, c⟩] } →
      exec (.subf c) s = .next { s with responses := s.responses ++ [⟨.ok, b⟩] }) ∧
    Function.Bijective (fun b : Byte => subByte b s.tabS) ∧
    ∀ b : Byte, subByte (subByte b s.tabS) s.tabIS = b ∧ subByte (subByte b s.tabIS) s.tabS = b

/-- R74, R75: on a `READY` engine `PRMI` undoes `PRMF` and `PRMF` undoes `PRMI`, for all 256 bytes; the map is a
bijection that keeps the number of 1 bits. -/
def Obligations.PermutationRoundTrip : Prop :=
  ∀ (s : State), s.Inv → s.pState = .ready →
    (∀ b c : Byte, exec (.prmf b) s = .next { s with responses := s.responses ++ [⟨.ok, c⟩] } →
      exec (.prmi c) s = .next { s with responses := s.responses ++ [⟨.ok, b⟩] }) ∧
    (∀ b c : Byte, exec (.prmi b) s = .next { s with responses := s.responses ++ [⟨.ok, c⟩] } →
      exec (.prmf c) s = .next { s with responses := s.responses ++ [⟨.ok, b⟩] }) ∧
    Function.Bijective (fun b : Byte => permByte b s.tabP) ∧
    (∀ b : Byte, onesCount (permByte b s.tabP) = onesCount b) ∧
    ∀ b : Byte, permByte (permByte b s.tabP) s.tabIP = b ∧ permByte (permByte b s.tabIP) s.tabP = b

/-- R122: a caller that encrypts with `SUBF` then `PRMF` decrypts with `PRMI` then `SUBI`, and one that uses the other
order reverses that one, in every reachable state with both engines `READY`. -/
def Obligations.ComposedRoundTrip : Prop :=
  ∀ (c : Config) (s : State) (b : Byte), Reachable c s → s.sState = .ready → s.pState = .ready →
    subByte (permByte (permByte (subByte b s.tabS) s.tabP) s.tabIP) s.tabIS = b ∧
    permByte (subByte (subByte (permByte b s.tabP) s.tabS) s.tabIS) s.tabIP = b
end

