-- ==== Sys2Proof/Laws/State.lean ====
section
/-! SUPPORT. Laws/State.lean: one lemma for each field under each update of the state, true by rfl, so that no later proof
unfolds a record update. -/

namespace Sys2Proof.Machine

section respond

variable (s : State) (st : Status) (d : Byte)

@[simp] theorem State.respond_tabS : (s.respond st d).tabS = s.tabS := rfl
@[simp] theorem State.respond_tabIS : (s.respond st d).tabIS = s.tabIS := rfl
@[simp] theorem State.respond_tabP : (s.respond st d).tabP = s.tabP := rfl
@[simp] theorem State.respond_tabIP : (s.respond st d).tabIP = s.tabIP := rfl
@[simp] theorem State.respond_sState : (s.respond st d).sState = s.sState := rfl
@[simp] theorem State.respond_pState : (s.respond st d).pState = s.pState := rfl
@[simp] theorem State.respond_sErrInfo : (s.respond st d).sErrInfo = s.sErrInfo := rfl
@[simp] theorem State.respond_sErrVal : (s.respond st d).sErrVal = s.sErrVal := rfl
@[simp] theorem State.respond_pErrInfo : (s.respond st d).pErrInfo = s.pErrInfo := rfl
@[simp] theorem State.respond_pErrVal : (s.respond st d).pErrVal = s.pErrVal := rfl
@[simp] theorem State.respond_inputs : (s.respond st d).inputs = s.inputs := rfl
@[simp] theorem State.respond_responses : (s.respond st d).responses = s.responses ++ [⟨st, d⟩] := rfl

end respond

section writeS

variable (s : State) (i : Nibble) (v : Byte)

@[simp] theorem State.writeS_tabS : (s.writeS i v).tabS = setEntry16 s.tabS i v := rfl
@[simp] theorem State.writeS_tabIS : (s.writeS i v).tabIS = s.tabIS := rfl
@[simp] theorem State.writeS_tabP : (s.writeS i v).tabP = s.tabP := rfl
@[simp] theorem State.writeS_tabIP : (s.writeS i v).tabIP = s.tabIP := rfl
@[simp] theorem State.writeS_sState : (s.writeS i v).sState = s.sState := rfl
@[simp] theorem State.writeS_pState : (s.writeS i v).pState = s.pState := rfl
@[simp] theorem State.writeS_sErrInfo : (s.writeS i v).sErrInfo = s.sErrInfo := rfl
@[simp] theorem State.writeS_sErrVal : (s.writeS i v).sErrVal = s.sErrVal := rfl
@[simp] theorem State.writeS_pErrInfo : (s.writeS i v).pErrInfo = s.pErrInfo := rfl
@[simp] theorem State.writeS_pErrVal : (s.writeS i v).pErrVal = s.pErrVal := rfl
@[simp] theorem State.writeS_inputs : (s.writeS i v).inputs = s.inputs := rfl
@[simp] theorem State.writeS_responses : (s.writeS i v).responses = s.responses := rfl

end writeS

section writeP

variable (s : State) (i : BitPos) (v : Byte)

@[simp] theorem State.writeP_tabS : (s.writeP i v).tabS = s.tabS := rfl
@[simp] theorem State.writeP_tabIS : (s.writeP i v).tabIS = s.tabIS := rfl
@[simp] theorem State.writeP_tabP : (s.writeP i v).tabP = setEntry8 s.tabP i v := rfl
@[simp] theorem State.writeP_tabIP : (s.writeP i v).tabIP = s.tabIP := rfl
@[simp] theorem State.writeP_sState : (s.writeP i v).sState = s.sState := rfl
@[simp] theorem State.writeP_pState : (s.writeP i v).pState = s.pState := rfl
@[simp] theorem State.writeP_sErrInfo : (s.writeP i v).sErrInfo = s.sErrInfo := rfl
@[simp] theorem State.writeP_sErrVal : (s.writeP i v).sErrVal = s.sErrVal := rfl
@[simp] theorem State.writeP_pErrInfo : (s.writeP i v).pErrInfo = s.pErrInfo := rfl
@[simp] theorem State.writeP_pErrVal : (s.writeP i v).pErrVal = s.pErrVal := rfl
@[simp] theorem State.writeP_inputs : (s.writeP i v).inputs = s.inputs := rfl
@[simp] theorem State.writeP_responses : (s.writeP i v).responses = s.responses := rfl

end writeP

section commitIS

variable (s : State) (inv : Vector (Fin 16) 16)

@[simp] theorem State.commitIS_tabS : (s.commitIS inv).tabS = s.tabS := rfl
@[simp] theorem State.commitIS_tabIS : (s.commitIS inv).tabIS = table16 fun j => nibbleOfIdx (inv.get j) := rfl
@[simp] theorem State.commitIS_tabP : (s.commitIS inv).tabP = s.tabP := rfl
@[simp] theorem State.commitIS_tabIP : (s.commitIS inv).tabIP = s.tabIP := rfl
@[simp] theorem State.commitIS_sState : (s.commitIS inv).sState = .ready := rfl
@[simp] theorem State.commitIS_pState : (s.commitIS inv).pState = s.pState := rfl
@[simp] theorem State.commitIS_sErrInfo : (s.commitIS inv).sErrInfo = s.sErrInfo := rfl
@[simp] theorem State.commitIS_sErrVal : (s.commitIS inv).sErrVal = s.sErrVal := rfl
@[simp] theorem State.commitIS_pErrInfo : (s.commitIS inv).pErrInfo = s.pErrInfo := rfl
@[simp] theorem State.commitIS_pErrVal : (s.commitIS inv).pErrVal = s.pErrVal := rfl
@[simp] theorem State.commitIS_inputs : (s.commitIS inv).inputs = s.inputs := rfl
@[simp] theorem State.commitIS_responses : (s.commitIS inv).responses = s.responses := rfl

end commitIS

section commitIP

variable (s : State) (inv : Vector (Fin 8) 8)

@[simp] theorem State.commitIP_tabS : (s.commitIP inv).tabS = s.tabS := rfl
@[simp] theorem State.commitIP_tabIS : (s.commitIP inv).tabIS = s.tabIS := rfl
@[simp] theorem State.commitIP_tabP : (s.commitIP inv).tabP = s.tabP := rfl
@[simp] theorem State.commitIP_tabIP : (s.commitIP inv).tabIP = table8 fun j => bitPosOfIdx (inv.get j) := rfl
@[simp] theorem State.commitIP_sState : (s.commitIP inv).sState = s.sState := rfl
@[simp] theorem State.commitIP_pState : (s.commitIP inv).pState = .ready := rfl
@[simp] theorem State.commitIP_sErrInfo : (s.commitIP inv).sErrInfo = s.sErrInfo := rfl
@[simp] theorem State.commitIP_sErrVal : (s.commitIP inv).sErrVal = s.sErrVal := rfl
@[simp] theorem State.commitIP_pErrInfo : (s.commitIP inv).pErrInfo = s.pErrInfo := rfl
@[simp] theorem State.commitIP_pErrVal : (s.commitIP inv).pErrVal = s.pErrVal := rfl
@[simp] theorem State.commitIP_inputs : (s.commitIP inv).inputs = s.inputs := rfl
@[simp] theorem State.commitIP_responses : (s.commitIP inv).responses = s.responses := rfl

end commitIP

section recordSub

variable (s : State) (info val : Byte)

@[simp] theorem State.recordSub_tabS : (s.recordConfigError .substitution info val).tabS = s.tabS := rfl
@[simp] theorem State.recordSub_tabIS : (s.recordConfigError .substitution info val).tabIS = s.tabIS := rfl
@[simp] theorem State.recordSub_tabP : (s.recordConfigError .substitution info val).tabP = s.tabP := rfl
@[simp] theorem State.recordSub_tabIP : (s.recordConfigError .substitution info val).tabIP = s.tabIP := rfl
@[simp] theorem State.recordSub_sState : (s.recordConfigError .substitution info val).sState = .failed := rfl
@[simp] theorem State.recordSub_pState : (s.recordConfigError .substitution info val).pState = s.pState := rfl
@[simp] theorem State.recordSub_sErrInfo : (s.recordConfigError .substitution info val).sErrInfo = info := rfl
@[simp] theorem State.recordSub_sErrVal : (s.recordConfigError .substitution info val).sErrVal = val := rfl
@[simp] theorem State.recordSub_pErrInfo : (s.recordConfigError .substitution info val).pErrInfo = s.pErrInfo := rfl
@[simp] theorem State.recordSub_pErrVal : (s.recordConfigError .substitution info val).pErrVal = s.pErrVal := rfl
@[simp] theorem State.recordSub_inputs : (s.recordConfigError .substitution info val).inputs = s.inputs := rfl
@[simp] theorem State.recordSub_responses : (s.recordConfigError .substitution info val).responses = s.responses := rfl

end recordSub

section recordPerm

variable (s : State) (info val : Byte)

@[simp] theorem State.recordPerm_tabS : (s.recordConfigError .permutation info val).tabS = s.tabS := rfl
@[simp] theorem State.recordPerm_tabIS : (s.recordConfigError .permutation info val).tabIS = s.tabIS := rfl
@[simp] theorem State.recordPerm_tabP : (s.recordConfigError .permutation info val).tabP = s.tabP := rfl
@[simp] theorem State.recordPerm_tabIP : (s.recordConfigError .permutation info val).tabIP = s.tabIP := rfl
@[simp] theorem State.recordPerm_sState : (s.recordConfigError .permutation info val).sState = s.sState := rfl
@[simp] theorem State.recordPerm_pState : (s.recordConfigError .permutation info val).pState = .failed := rfl
@[simp] theorem State.recordPerm_sErrInfo : (s.recordConfigError .permutation info val).sErrInfo = s.sErrInfo := rfl
@[simp] theorem State.recordPerm_sErrVal : (s.recordConfigError .permutation info val).sErrVal = s.sErrVal := rfl
@[simp] theorem State.recordPerm_pErrInfo : (s.recordConfigError .permutation info val).pErrInfo = info := rfl
@[simp] theorem State.recordPerm_pErrVal : (s.recordConfigError .permutation info val).pErrVal = val := rfl
@[simp] theorem State.recordPerm_inputs : (s.recordConfigError .permutation info val).inputs = s.inputs := rfl
@[simp] theorem State.recordPerm_responses : (s.recordConfigError .permutation info val).responses = s.responses := rfl

end recordPerm

section applyReset

variable (s : State) (c : Config)

@[simp] theorem State.applyReset_tabS : (s.applyReset c).tabS = c.sReset := rfl
@[simp] theorem State.applyReset_tabIS : (s.applyReset c).tabIS = Vector.replicate 16 0 := rfl
@[simp] theorem State.applyReset_tabP : (s.applyReset c).tabP = c.pReset := rfl
@[simp] theorem State.applyReset_tabIP : (s.applyReset c).tabIP = Vector.replicate 8 0 := rfl
@[simp] theorem State.applyReset_sState : (s.applyReset c).sState = .uninit := rfl
@[simp] theorem State.applyReset_pState : (s.applyReset c).pState = .uninit := rfl
@[simp] theorem State.applyReset_sErrInfo : (s.applyReset c).sErrInfo = 0 := rfl
@[simp] theorem State.applyReset_sErrVal : (s.applyReset c).sErrVal = 0 := rfl
@[simp] theorem State.applyReset_pErrInfo : (s.applyReset c).pErrInfo = 0 := rfl
@[simp] theorem State.applyReset_pErrVal : (s.applyReset c).pErrVal = 0 := rfl
@[simp] theorem State.applyReset_inputs : (s.applyReset c).inputs = s.inputs := rfl
@[simp] theorem State.applyReset_responses : (s.applyReset c).responses = s.responses := rfl

end applyReset

section presentWord

variable (s : State) (w : CmdWord)

@[simp] theorem State.presentWord_tabS : (s.presentWord w).tabS = s.tabS := rfl
@[simp] theorem State.presentWord_tabIS : (s.presentWord w).tabIS = s.tabIS := rfl
@[simp] theorem State.presentWord_tabP : (s.presentWord w).tabP = s.tabP := rfl
@[simp] theorem State.presentWord_tabIP : (s.presentWord w).tabIP = s.tabIP := rfl
@[simp] theorem State.presentWord_sState : (s.presentWord w).sState = s.sState := rfl
@[simp] theorem State.presentWord_pState : (s.presentWord w).pState = s.pState := rfl
@[simp] theorem State.presentWord_sErrInfo : (s.presentWord w).sErrInfo = s.sErrInfo := rfl
@[simp] theorem State.presentWord_sErrVal : (s.presentWord w).sErrVal = s.sErrVal := rfl
@[simp] theorem State.presentWord_pErrInfo : (s.presentWord w).pErrInfo = s.pErrInfo := rfl
@[simp] theorem State.presentWord_pErrVal : (s.presentWord w).pErrVal = s.pErrVal := rfl
@[simp] theorem State.presentWord_inputs : (s.presentWord w).inputs = .command w :: s.inputs := rfl
@[simp] theorem State.presentWord_responses : (s.presentWord w).responses = s.responses := rfl

end presentWord

section withFetchWord

variable (s : State) (nbits w : Nat)

@[simp] theorem State.withFetchWord_tabS : (s.withFetchWord nbits w).tabS = s.tabS := rfl
@[simp] theorem State.withFetchWord_tabIS : (s.withFetchWord nbits w).tabIS = s.tabIS := rfl
@[simp] theorem State.withFetchWord_tabP : (s.withFetchWord nbits w).tabP = s.tabP := rfl
@[simp] theorem State.withFetchWord_tabIP : (s.withFetchWord nbits w).tabIP = s.tabIP := rfl
@[simp] theorem State.withFetchWord_sState : (s.withFetchWord nbits w).sState = s.sState := rfl
@[simp] theorem State.withFetchWord_pState : (s.withFetchWord nbits w).pState = s.pState := rfl
@[simp] theorem State.withFetchWord_sErrInfo : (s.withFetchWord nbits w).sErrInfo = s.sErrInfo := rfl
@[simp] theorem State.withFetchWord_sErrVal : (s.withFetchWord nbits w).sErrVal = s.sErrVal := rfl
@[simp] theorem State.withFetchWord_pErrInfo : (s.withFetchWord nbits w).pErrInfo = s.pErrInfo := rfl
@[simp] theorem State.withFetchWord_pErrVal : (s.withFetchWord nbits w).pErrVal = s.pErrVal := rfl
@[simp] theorem State.withFetchWord_inputs : (s.withFetchWord nbits w).inputs = .command (BitVec.ofNat 16 (w % 2 ^ nbits)) :: s.inputs := rfl
@[simp] theorem State.withFetchWord_responses : (s.withFetchWord nbits w).responses = s.responses := rfl

end withFetchWord

section resetWith

variable (c : Config)

@[simp] theorem State.resetWith_tabS : (State.resetWith c).tabS = c.sReset := rfl
@[simp] theorem State.resetWith_tabIS : (State.resetWith c).tabIS = Vector.replicate 16 0 := rfl
@[simp] theorem State.resetWith_tabP : (State.resetWith c).tabP = c.pReset := rfl
@[simp] theorem State.resetWith_tabIP : (State.resetWith c).tabIP = Vector.replicate 8 0 := rfl
@[simp] theorem State.resetWith_sState : (State.resetWith c).sState = .uninit := rfl
@[simp] theorem State.resetWith_pState : (State.resetWith c).pState = .uninit := rfl
@[simp] theorem State.resetWith_sErrInfo : (State.resetWith c).sErrInfo = 0 := rfl
@[simp] theorem State.resetWith_sErrVal : (State.resetWith c).sErrVal = 0 := rfl
@[simp] theorem State.resetWith_pErrInfo : (State.resetWith c).pErrInfo = 0 := rfl
@[simp] theorem State.resetWith_pErrVal : (State.resetWith c).pErrVal = 0 := rfl
@[simp] theorem State.resetWith_inputs : (State.resetWith c).inputs = [] := rfl
@[simp] theorem State.resetWith_responses : (State.resetWith c).responses = [] := rfl

end resetWith

end Sys2Proof.Machine
end

