-- ==== Sys2Proof/Laws/Ops.lean ====
section
/-! SUPPORT. Laws/Ops.lean: one lemma for each shared operation of Operands, Flags and Ops, saying once everything it can
do. -/

namespace Sys2Proof.Machine

/-! Tables -/

@[simp] theorem table16_get {α : Type} (f : Fin 16 → α) (j : Fin 16) : (table16 f).get j = f j := by
  fin_cases j <;> rfl

@[simp] theorem table8_get {α : Type} (f : Fin 8 → α) (j : Fin 8) : (table8 f).get j = f j := by
  fin_cases j <;> rfl

@[simp] theorem idx16_val (i : Nibble) : (idx16 i).val = i.toNat := rfl

@[simp] theorem idx8_val (i : BitPos) : (idx8 i).val = i.toNat := rfl

@[simp] theorem nibbleOfIdx_idx16 (i : Nibble) : nibbleOfIdx (idx16 i) = i := by revert i; decide

@[simp] theorem idx16_nibbleOfIdx (i : Fin 16) : idx16 (nibbleOfIdx i) = i := by revert i; decide

@[simp] theorem bitPosOfIdx_idx8 (i : BitPos) : bitPosOfIdx (idx8 i) = i := by revert i; decide

@[simp] theorem idx8_bitPosOfIdx (i : Fin 8) : idx8 (bitPosOfIdx i) = i := by revert i; decide

@[simp] theorem nibbleOfIdx_toNat (i : Fin 16) : (nibbleOfIdx i).toNat = i.val := by revert i; decide

@[simp] theorem nibbleOfIdx_toNat8 (i : Fin 8) : (nibbleOfIdx i).toNat = i.val := by revert i; decide

@[simp] theorem bitPosOfIdx_toNat (i : Fin 8) : (bitPosOfIdx i).toNat = i.val := by revert i; decide

/-- The 4-bit index of an 8-entry table is its 3-bit index with a zero on top. -/
theorem nibbleOfIdx_eq_idxOfBitPos (i : Fin 8) : nibbleOfIdx i = idxOfBitPos (bitPosOfIdx i) := by
  revert i; decide

theorem idx16_injective {i j : Nibble} (h : idx16 i = idx16 j) : i = j := by
  rw [← nibbleOfIdx_idx16 i, h, nibbleOfIdx_idx16]

theorem idx8_injective {i j : BitPos} (h : idx8 i = idx8 j) : i = j := by
  rw [← bitPosOfIdx_idx8 i, h, bitPosOfIdx_idx8]

@[simp] theorem entry16_setEntry16_same {α : Type} (t : Vector α 16) (i : Nibble) (v : α) :
    entry16 (setEntry16 t i v) i = v :=
  Vector.getElem_set_self (idx16 i).isLt

theorem entry16_setEntry16_other {α : Type} (t : Vector α 16) {i j : Nibble} (v : α) (h : j ≠ i) :
    entry16 (setEntry16 t i v) j = entry16 t j :=
  Vector.getElem_set_ne (idx16 i).isLt (idx16 j).isLt fun e => h (idx16_injective (Fin.ext e.symm))

@[simp] theorem entry8_setEntry8_same {α : Type} (t : Vector α 8) (i : BitPos) (v : α) :
    entry8 (setEntry8 t i v) i = v :=
  Vector.getElem_set_self (idx8 i).isLt

theorem entry8_setEntry8_other {α : Type} (t : Vector α 8) {i j : BitPos} (v : α) (h : j ≠ i) :
    entry8 (setEntry8 t i v) j = entry8 t j :=
  Vector.getElem_set_ne (idx8 i).isLt (idx8 j).isLt fun e => h (idx8_injective (Fin.ext e.symm))

/-- A register file read by an index of the scan is its table's entry there. -/
@[simp] theorem readS_nibbleOfIdx (s : State) (i : Fin 16) : s.readS (nibbleOfIdx i) = s.tabS.get i := by
  rw [State.readS, entry16, idx16_nibbleOfIdx]

@[simp] theorem readP_bitPosOfIdx (s : State) (i : Fin 8) : s.readP (bitPosOfIdx i) = s.tabP.get i := by
  rw [State.readP, entry8, idx8_bitPosOfIdx]

theorem readS_eq_get (s : State) (i : Nibble) : s.readS i = s.tabS.get (idx16 i) := rfl

theorem readP_eq_get (s : State) (i : BitPos) : s.readP i = s.tabP.get (idx8 i) := rfl

@[simp] theorem readIS_commitIS (s : State) (inv : Vector (Fin 16) 16) (j : Nibble) :
    (s.commitIS inv).readIS j = nibbleOfIdx (inv.get (idx16 j)) :=
  table16_get _ _

@[simp] theorem readIP_commitIP (s : State) (inv : Vector (Fin 8) 8) (j : BitPos) :
    (s.commitIP inv).readIP j = bitPosOfIdx (inv.get (idx8 j)) :=
  table8_get _ _

/-! Responses and checks -/

/-- `respond` always answers a next state: the same state with one more response. -/
@[simp] theorem respond_eq (st : Status) (d : Byte) (s : State) : respond st d s = .next (s.respond st d) := rfl

@[simp] theorem refuseNotReady_eq (s : State) : refuseNotReady s = .next (s.respond .notReady 0) := rfl

@[simp] theorem refuseLocked_eq (s : State) : refuseLocked s = .next (s.respond .locked 0) := rfl

@[simp] theorem refuseIllegal_eq (s : State) : refuseIllegal s = .next (s.respond .illegalCmd 0) := rfl

@[simp] theorem whenReady_ready (s : State) (k : Result) : whenReady .ready s k = k := rfl

theorem whenReady_of_ready {e : EngineState} (h : e = .ready) (s : State) (k : Result) : whenReady e s k = k := by
  subst h; rfl

theorem whenReady_of_not_ready {e : EngineState} (h : e ≠ .ready) (s : State) (k : Result) :
    whenReady e s k = .next (s.respond .notReady 0) := by
  cases e <;> first | rfl | exact absurd rfl h

@[simp] theorem whenUninit_uninit (s : State) (k : Result) : whenUninit .uninit s k = k := rfl

theorem whenUninit_of_uninit {e : EngineState} (h : e = .uninit) (s : State) (k : Result) : whenUninit e s k = k := by
  subst h; rfl

theorem whenUninit_of_not_uninit {e : EngineState} (h : e ≠ .uninit) (s : State) (k : Result) :
    whenUninit e s k = .next (s.respond .locked 0) := by
  cases e <;> first | rfl | exact absurd rfl h

/-- Everything `whenReady` can do. -/
theorem whenReady_cases (e : EngineState) (s : State) (k : Result) :
    (e = .ready ∧ whenReady e s k = k) ∨ (e ≠ .ready ∧ whenReady e s k = .next (s.respond .notReady 0)) := by
  cases e <;> simp [whenReady]

/-- Everything `whenUninit` can do. -/
theorem whenUninit_cases (e : EngineState) (s : State) (k : Result) :
    (e = .uninit ∧ whenUninit e s k = k) ∨ (e ≠ .uninit ∧ whenUninit e s k = .next (s.respond .locked 0)) := by
  cases e <;> simp [whenUninit]

@[simp] theorem takeConfigError_eq (k : TableKind) (c : Cause) (idx : Nibble) (val : Byte) (s : State) :
    takeConfigError k c idx val s =
      .next ((s.recordConfigError k (errInfo k c idx) val).respond .configError (errInfo k c idx)) := rfl

/-! Status space -/

theorem readStatus_some {s : State} {r : Nibble} (h : r.toNat ≤ 4) : ∃ v, s.readStatus r = some v := by
  unfold State.readStatus
  generalize r.toNat = n at h ⊢
  rcases n with _ | _ | _ | _ | _ | n
  case succ => omega
  all_goals exact ⟨_, rfl⟩

theorem readStatus_none {s : State} {r : Nibble} (h : 4 < r.toNat) : s.readStatus r = none := by
  unfold State.readStatus
  generalize r.toNat = n at h ⊢
  rcases n with _ | _ | _ | _ | _ | n
  case succ => rfl
  all_goals omega

theorem EngineState.code_injective {a b : EngineState} (h : a.code = b.code) : a = b := by
  revert h; cases a <;> cases b <;> decide

theorem Status.code_injective {a b : Status} (h : a.code = b.code) : a = b := by
  revert h; cases a <;> cases b <;> decide

end Sys2Proof.Machine
end

