-- ==== Sys2Proof/Laws/Tables.lean ====
section
/-! SUPPORT. Laws/Tables.lean: what the three pure functions do (R63, R70, R77): the nibbles of a substituted byte, the
bits of a permuted byte, and the scan of a candidate table. -/

namespace Sys2Proof.Machine

/-! SubByte -/

@[simp] theorem hiNibble_joinNibbles (hi lo : Nibble) : hiNibble (joinNibbles hi lo) = hi := by
  revert hi lo; decide

@[simp] theorem loNibble_joinNibbles (hi lo : Nibble) : loNibble (joinNibbles hi lo) = lo := by
  revert hi lo; decide

@[simp] theorem joinNibbles_split (b : Byte) : joinNibbles (hiNibble b) (loNibble b) = b := by
  revert b; decide

/-- A byte is known by its two nibbles. -/
theorem byte_ext {a b : Byte} (hh : hiNibble a = hiNibble b) (hl : loNibble a = loNibble b) : a = b := by
  rw [← joinNibbles_split a, ← joinNibbles_split b, hh, hl]

@[simp] theorem hiNibble_subByte {ew : Nat} (b : Byte) (t : Vector (BitVec ew) 16) :
    hiNibble (subByte b t) = entryNibble (entry16 t (hiNibble b)) := by simp [subByte]

@[simp] theorem loNibble_subByte {ew : Nat} (b : Byte) (t : Vector (BitVec ew) 16) :
    loNibble (subByte b t) = entryNibble (entry16 t (loNibble b)) := by simp [subByte]

@[simp] theorem entryNibble_nibble (v : Nibble) : entryNibble v = v := by revert v; decide

@[simp] theorem entryNibble_widen (v : Nibble) : entryNibble (widenNibble v) = v := by revert v; decide

theorem widen_entryNibble {v : Byte} (h : v.toNat < 16) : widenNibble (entryNibble v) = v := by
  revert v; decide

/-! PermByte -/

@[simp] theorem entryBitPos_bitPos (v : BitPos) : entryBitPos v = v := by revert v; decide

@[simp] theorem entryBitPos_widen (v : BitPos) : entryBitPos (widenBitPos v) = v := by revert v; decide

theorem widen_entryBitPos {v : Byte} (h : v.toNat < 8) : widenBitPos (entryBitPos v) = v := by
  revert v; decide

theorem gatherBit_getLsbD {ew : Nat} (b : Byte) (t : Vector (BitVec ew) 8) (i j : Fin 8) :
    (gatherBit b t i).getLsbD j.val =
      (decide (i = j) && b.getLsbD (entryBitPos (entry8 t (bitPosOfIdx i))).toNat) := by
  have key : ∀ i j : Fin 8, (1#8 <<< i.val).getLsbD j.val = decide (i = j) := by decide
  unfold gatherBit
  split
  · next h => rw [h, key, Bool.and_true]
  · next h => simp [h]

/-- Output bit `i` is input bit `T[i]` (R70). -/
theorem permByte_getLsbD {ew : Nat} (b : Byte) (t : Vector (BitVec ew) 8) (i : BitPos) :
    (permByte b t).getLsbD i.toNat = b.getLsbD (entryBitPos (entry8 t i)).toNat := by
  have hr : List.finRange 8 = [0, 1, 2, 3, 4, 5, 6, 7] := by decide
  have h : ∀ j : Fin 8, (permByte b t).getLsbD j.val = b.getLsbD (entryBitPos (entry8 t (bitPosOfIdx j))).toNat := by
    intro j
    simp only [permByte, hr, List.foldl_cons, List.foldl_nil, BitVec.getLsbD_or, gatherBit_getLsbD]
    fin_cases j <;> simp
  have := h (idx8 i)
  rwa [idx8_val, bitPosOfIdx_idx8] at this

/-- A byte is known by its eight bits. -/
theorem byte_ext_bits {a b : Byte} (h : ∀ i : BitPos, a.getLsbD i.toNat = b.getLsbD i.toNat) : a = b := by
  apply BitVec.eq_of_getLsbD_eq
  intro i hi
  have := h (bitPosOfIdx ⟨i, hi⟩)
  rwa [bitPosOfIdx_toNat] at this

/-! InvertTable -/

/-- What the slots hold once the indices of `done` have been scanned without an error: every scanned entry is in
range, and slot `v` names the scanned index whose entry is `v`, if there is one. -/
structure ScannedSlots {n : Nat} (t : Vector Byte n) (done : List (Fin n)) (slots : Slots n) : Prop where
  inRange : ∀ i ∈ done, (t.get i).toNat < n
  slot : ∀ v i, slots.get v = some i ↔ i ∈ done ∧ (t.get i).toNat = v.val

theorem scannedSlots_nil {n : Nat} (t : Vector Byte n) : ScannedSlots t [] (Vector.replicate n none) where
  inRange := by simp
  slot := by intro v i; simp [Vector.get]

/-- No two scanned indices have the same entry. -/
theorem ScannedSlots.distinct {n : Nat} {t : Vector Byte n} {done : List (Fin n)} {slots : Slots n}
    (h : ScannedSlots t done slots) {i j : Fin n} (hi : i ∈ done) (hj : j ∈ done) (e : t.get i = t.get j) : i = j := by
  have a := (h.slot ⟨(t.get i).toNat, h.inRange i hi⟩ i).2 ⟨hi, rfl⟩
  have b := (h.slot ⟨(t.get i).toNat, h.inRange i hi⟩ j).2 ⟨hj, by rw [← e]⟩
  exact Option.some.inj (a.symm.trans b)

/-- Scanning one more index whose entry is in range and new. -/
theorem ScannedSlots.push {n : Nat} {t : Vector Byte n} {done : List (Fin n)} {slots : Slots n}
    (h : ScannedSlots t done slots) (i : Fin n) (hr : (t.get i).toNat < n)
    (hn : slots.get ⟨(t.get i).toNat, hr⟩ = none) :
    ScannedSlots t (done ++ [i]) (slots.set (t.get i).toNat (some i) hr) where
  inRange := by
    intro j hj
    rcases List.mem_append.1 hj with hj | hj
    · exact h.inRange j hj
    · rw [List.mem_singleton.1 hj]; exact hr
  slot := by
    intro v j
    by_cases hv : (t.get i).toNat = v.val
    · have hv' : v = ⟨(t.get i).toNat, hr⟩ := Fin.ext hv.symm
      subst hv'
      have hnone : ∀ j ∈ done, (t.get j).toNat ≠ (t.get i).toNat := by
        intro j hj e
        have := (h.slot ⟨(t.get i).toNat, hr⟩ j).2 ⟨hj, e⟩
        rw [hn] at this
        cases this
      have hg : (slots.set (t.get i).toNat (some i) hr).get ⟨(t.get i).toNat, hr⟩ = some i :=
        Vector.getElem_set_self hr
      rw [hg]
      constructor
      · intro e; cases e; simp
      · rintro ⟨hj, e⟩
        rcases List.mem_append.1 hj with hj | hj
        · exact absurd e (hnone j hj)
        · rw [List.mem_singleton.1 hj]
    · have hg : (slots.set (t.get i).toNat (some i) hr).get v = slots.get v := by
        have := Vector.getElem_set_ne (xs := slots) (i := (t.get i).toNat) (j := v.val) (x := some i) hr v.isLt hv
        exact this
      rw [hg, h.slot]
      constructor
      · rintro ⟨hj, e⟩; exact ⟨List.mem_append_left _ hj, e⟩
      · rintro ⟨hj, e⟩
        rcases List.mem_append.1 hj with hj | hj
        · exact ⟨hj, e⟩
        · rw [List.mem_singleton.1 hj] at e; exact absurd e hv

/-- Everything the scan of `InvertTable` can do (R77): it scans all that is left and returns the slots' table, or it
stops at the first index whose entry is out of range or was met before. -/
theorem invertScan_cases {n : Nat} (t : Vector Byte n) (rest : List (Fin n)) :
    ∀ (done : List (Fin n)) (slots : Slots n), ScannedSlots t done slots →
      (∃ full : Slots n, invertScan t rest slots = .ok full.table ∧ ScannedSlots t (done ++ rest) full) ∨
      (∃ pre i post seen, rest = pre ++ i :: post ∧ ScannedSlots t (done ++ pre) seen ∧
        ((invertScan t rest slots = .err .range i (t.get i) ∧ n ≤ (t.get i).toNat) ∨
         (invertScan t rest slots = .err .duplicate i (t.get i) ∧ (t.get i).toNat < n ∧
            ∃ j ∈ done ++ pre, t.get j = t.get i))) := by
  induction rest with
  | nil => intro done slots h; exact .inl ⟨slots, rfl, by simpa using h⟩
  | cons i rest ih =>
    intro done slots h
    by_cases hr : (t.get i).toNat < n
    · cases hs : slots.get ⟨(t.get i).toNat, hr⟩ with
      | some j =>
        have hj := (h.slot _ j).1 hs
        refine .inr ⟨[], i, rest, slots, rfl, by simpa using h, .inr ⟨?_, hr, j, by simpa using hj.1, ?_⟩⟩
        · simp [invertScan, hr, hs]
        · exact BitVec.eq_of_toNat_eq hj.2
      | none =>
        have e : invertScan t (i :: rest) slots = invertScan t rest (slots.set (t.get i).toNat (some i) hr) := by
          simp [invertScan, hr, hs]
        rw [e]
        rcases ih _ _ (h.push i hr hs) with ⟨full, he, hf⟩ | ⟨pre, k, post, seen, hl, hseen, hk⟩
        · exact .inl ⟨full, he, by simpa using hf⟩
        · exact .inr ⟨i :: pre, k, post, seen, by simp [hl], by simpa using hseen, by simpa using hk⟩
    · refine .inr ⟨[], i, rest, slots, rfl, by simpa using h, .inl ⟨?_, by omega⟩⟩
      simp [invertScan, hr]

/-- In the ascending list of indices, those before `i` are those less than `i`. -/
theorem mem_finRange_prefix {n : Nat} {pre post : List (Fin n)} {i : Fin n}
    (h : List.finRange n = pre ++ i :: post) (j : Fin n) : j ∈ pre ↔ j < i := by
  have hp : (pre ++ i :: post).Pairwise (· < ·) := h ▸ List.pairwise_lt_finRange n
  have hm : j ∈ pre ++ i :: post := h ▸ List.mem_finRange j
  rw [List.pairwise_append] at hp
  constructor
  · intro hj; exact hp.2.2 j hj i (by simp)
  · intro hj
    rcases List.mem_append.1 hm with hm | hm
    · exact hm
    · rcases List.mem_cons.1 hm with rfl | hm
      · exact absurd hj (lt_irrefl _)
      · exact absurd ((List.pairwise_cons.1 hp.2.1).1 j hm) (not_lt.2 hj.le)

/-- The slots of a whole scan give the inverse: the slot of entry `i` is `i`. -/
theorem ScannedSlots.table_get {n : Nat} {t : Vector Byte n} {done : List (Fin n)} {slots : Slots n}
    (h : ScannedSlots t done slots) {i : Fin n} (hi : i ∈ done) :
    slots.table.get ⟨(t.get i).toNat, h.inRange i hi⟩ = i := by
  have := (h.slot ⟨(t.get i).toNat, h.inRange i hi⟩ i).2 ⟨hi, rfl⟩
  have e : slots.table.get ⟨(t.get i).toNat, h.inRange i hi⟩ =
      (slots.get ⟨(t.get i).toNat, h.inRange i hi⟩).getD ⟨(t.get i).toNat, h.inRange i hi⟩ :=
    Vector.getElem_ofFn (f := fun j : Fin n => (slots.get j).getD j) (h.inRange i hi)
  rw [e, this, Option.getD_some]

end Sys2Proof.Machine
end

