-- ==== Sys2Proof/Laws/Exec.lean ====
section
/-! SUPPORT. Laws/Exec.lean: said once, everything a command can do: the state it leaves and the response it gives. Every
invariant and frame follows from `exec_effect`, with no meaning unfolded again. -/

namespace Sys2Proof.Machine

/-- What a command can do to the block and answer. -/
inductive Effect (s : State) : State → Status → Byte → Prop where
  /-- It only answers, `OK` or one of the three refusals. -/
  | answers (st : Status) (d : Byte) : st ≠ .configError → (st ≠ .ok → d = 0) → Effect s s st d
  /-- `WRS` on an `UNINIT` engine. -/
  | writesS (i : Nibble) (v : Byte) : s.sState = .uninit → Effect s (s.writeS i v) .ok 0
  /-- `WRP` on an `UNINIT` engine. -/
  | writesP (i : BitPos) (v : Byte) : s.pState = .uninit → Effect s (s.writeP i v) .ok 0
  /-- `INIS` on an `UNINIT` engine with a valid table. -/
  | readiesS (inv : Vector (Fin 16) 16) : s.sState = .uninit → invertTable s.tabS = .ok inv →
      Effect s (s.commitIS inv) .ok 0
  /-- `INIP` on an `UNINIT` engine with a valid table. -/
  | readiesP (inv : Vector (Fin 8) 8) : s.pState = .uninit → invertTable s.tabP = .ok inv →
      Effect s (s.commitIP inv) .ok 0
  /-- `INIS` on an `UNINIT` engine with an invalid table. -/
  | failsS (c : Cause) (i : Fin 16) (v : Byte) : s.sState = .uninit → invertTable s.tabS = .err c i v →
      Effect s (s.recordConfigError .substitution (errInfo .substitution c (nibbleOfIdx i)) v) .configError
        (errInfo .substitution c (nibbleOfIdx i))
  /-- `INIP` on an `UNINIT` engine with an invalid table. -/
  | failsP (c : Cause) (i : Fin 8) (v : Byte) : s.pState = .uninit → invertTable s.tabP = .err c i v →
      Effect s (s.recordConfigError .permutation (errInfo .permutation c (nibbleOfIdx i)) v) .configError
        (errInfo .permutation c (nibbleOfIdx i))

theorem Effect.ok (s : State) (d : Byte) : Effect s s .ok d := .answers _ _ (by decide) (by simp)

theorem Effect.notReady (s : State) : Effect s s .notReady 0 := .answers _ _ (by decide) (by simp)

theorem Effect.locked (s : State) : Effect s s .locked 0 := .answers _ _ (by decide) (by simp)

theorem Effect.illegal (s : State) : Effect s s .illegalCmd 0 := .answers _ _ (by decide) (by simp)

/-- A command that reads under the check `READY` only answers. -/
theorem whenReady_effect (e : EngineState) (s : State) (d : Byte) :
    ∃ u st d', whenReady e s (respond .ok d s) = .next (u.respond st d') ∧ Effect s u st d' := by
  rcases whenReady_cases e s (respond .ok d s) with ⟨-, h⟩ | ⟨-, h⟩
  · exact ⟨s, _, _, h, .ok s d⟩
  · exact ⟨s, _, _, h, .notReady s⟩

/-- A command under the check `UNINIT` is refused or does what it does there. -/
theorem whenUninit_effect (e : EngineState) (s : State) (k : Result)
    (hk : e = .uninit → ∃ u st d, k = .next (u.respond st d) ∧ Effect s u st d) :
    ∃ u st d, whenUninit e s k = .next (u.respond st d) ∧ Effect s u st d := by
  rcases whenUninit_cases e s k with ⟨he, h⟩ | ⟨-, h⟩
  · rw [h]; exact hk he
  · exact ⟨s, _, _, h, .locked s⟩

theorem execInis_effect (s : State) : ∃ u st d, execInis s = .next (u.respond st d) ∧ Effect s u st d := by
  apply whenUninit_effect
  intro he
  cases h : invertTable s.tabS with
  | ok inv => exact ⟨_, _, _, rfl, .readiesS inv he h⟩
  | err c i v => exact ⟨_, _, _, rfl, .failsS c i v he h⟩

theorem execInip_effect (s : State) : ∃ u st d, execInip s = .next (u.respond st d) ∧ Effect s u st d := by
  apply whenUninit_effect
  intro he
  cases h : invertTable s.tabP with
  | ok inv => exact ⟨_, _, _, rfl, .readiesP inv he h⟩
  | err c i v => exact ⟨_, _, _, rfl, .failsP c i v he h⟩

theorem execRdst_effect (r : Nibble) (s : State) :
    ∃ u st d, execRdst r s = .next (u.respond st d) ∧ Effect s u st d := by
  cases h : s.readStatus r with
  | some v => exact ⟨s, .ok, v, by simp [execRdst, h], .ok s v⟩
  | none => exact ⟨s, .illegalCmd, 0, by simp [execRdst, h], .illegal s⟩

/-- Everything a command can do. -/
theorem exec_effect (i : Instr) (s : State) : ∃ u st d, exec i s = .next (u.respond st d) ∧ Effect s u st d := by
  cases i with
  | subf b => exact whenReady_effect _ _ _
  | subi b => exact whenReady_effect _ _ _
  | prmf b => exact whenReady_effect _ _ _
  | prmi b => exact whenReady_effect _ _ _
  | wrs k v => exact whenUninit_effect _ _ _ fun he => ⟨_, _, _, rfl, .writesS k v he⟩
  | wrp k v => exact whenUninit_effect _ _ _ fun he => ⟨_, _, _, rfl, .writesP k v he⟩
  | inis => exact execInis_effect s
  | inip => exact execInip_effect s
  | rds k => exact ⟨s, _, _, rfl, .ok s _⟩
  | rdis k => exact whenReady_effect _ _ _
  | rdp k => exact ⟨s, _, _, rfl, .ok s _⟩
  | rdip k => exact whenReady_effect _ _ _
  | rdst r => exact execRdst_effect r s

end Sys2Proof.Machine
end

