-- ==== Sys2Proof/Laws/PerInstr.lean ====
section
/-! SUPPORT. Laws/PerInstr.lean: the family EncodeFields, one lemma per command: the three fields of a command's word are
those of its row of the opcode table (R50, R52, R62). -/

namespace Sys2Proof.Laws

/-- The opcode of a command (R52). -/
def opcodeOf : Instr → BitVec 4
  | .subf _ => 0x1
  | .subi _ => 0x2
  | .prmf _ => 0x3
  | .prmi _ => 0x4
  | .wrs _ _ => 0x5
  | .wrp _ _ => 0x6
  | .inis => 0x7
  | .inip => 0x8
  | .rds _ => 0x9
  | .rdis _ => 0xA
  | .rdp _ => 0xB
  | .rdip _ => 0xC
  | .rdst _ => 0xD

/-- The field `IDX` of a command: its index, or 0 where the form has none (R62). -/
def indexOf : Instr → Nibble
  | .subf _ => 0
  | .subi _ => 0
  | .prmf _ => 0
  | .prmi _ => 0
  | .wrs i _ => i
  | .wrp i _ => idxOfBitPos i
  | .inis => 0
  | .inip => 0
  | .rds i => i
  | .rdis i => i
  | .rdp i => idxOfBitPos i
  | .rdip i => idxOfBitPos i
  | .rdst r => r

/-- The field `DATA` of a command: its byte, or 0 where the form has none (R62). -/
def dataOf : Instr → Byte
  | .subf b => b
  | .subi b => b
  | .prmf b => b
  | .prmi b => b
  | .wrs _ v => v
  | .wrp _ v => v
  | .inis => 0
  | .inip => 0
  | .rds _ => 0
  | .rdis _ => 0
  | .rdp _ => 0
  | .rdip _ => 0
  | .rdst _ => 0

/-- The bits of a word from its fields (R49). -/
theorem cmdWord_getLsbD (op idx : BitVec 4) (d : Byte) (i : Nat) : (cmdWord op idx d).getLsbD i =
    if i < 8 then d.getLsbD i else if i - 8 < 4 then idx.getLsbD (i - 8) else op.getLsbD (i - 8 - 4) := by
  have h1 := BitVec.getLsbD_append (x := op ++ idx) (y := d) (i := i)
  have h2 := BitVec.getLsbD_append (x := op) (y := idx) (i := i - 8)
  rw [h2] at h1
  exact h1

@[simp] theorem opField_cmdWord (op idx : BitVec 4) (d : Byte) : opField (cmdWord op idx d) = op := by
  apply BitVec.eq_of_getLsbD_eq
  intro i h
  have h8 : ¬ 12 + i < 8 := by omega
  have h4 : ¬ 12 + i - 8 < 4 := by omega
  have he : 12 + i - 8 - 4 = i := by omega
  simp only [opField, BitVec.getLsbD_extractLsb', cmdWord_getLsbD, h, h8, h4, he, decide_true, Bool.true_and, if_false]

@[simp] theorem idxField_cmdWord (op idx : BitVec 4) (d : Byte) : idxField (cmdWord op idx d) = idx := by
  apply BitVec.eq_of_getLsbD_eq
  intro i h
  have h8 : ¬ 8 + i < 8 := by omega
  have he : 8 + i - 8 = i := by omega
  simp only [idxField, BitVec.getLsbD_extractLsb', cmdWord_getLsbD, h, h8, he, decide_true, Bool.true_and, if_false, if_true]

@[simp] theorem dataField_cmdWord (op idx : BitVec 4) (d : Byte) : dataField (cmdWord op idx d) = d := by
  apply BitVec.eq_of_getLsbD_eq
  intro i h
  have he : 0 + i = i := by omega
  simp only [dataField, BitVec.getLsbD_extractLsb', cmdWord_getLsbD, h, he, decide_true, Bool.true_and, if_true]

/-- A word is its three fields (R49). -/
theorem cmdWord_fields (w : CmdWord) : cmdWord (opField w) (idxField w) (dataField w) = w := by
  apply BitVec.eq_of_getLsbD_eq
  intro i h
  rw [cmdWord_getLsbD]
  simp only [opField, idxField, dataField, BitVec.getLsbD_extractLsb']
  by_cases h8 : i < 8
  · simp [h8]
  · by_cases h12 : i - 8 < 4
    · have h4 : 8 + (i - 8) = i := by omega
      simp [h8, h12, h4]
    · have h4 : 12 + (i - 8 - 4) = i := by omega
      have h5 : i - 8 - 4 < 4 := by omega
      simp [h8, h12, h4, h5]

/-- A 3-bit index survives the 4-bit field. -/
theorem idxOfBitPos_low3 (i : BitPos) : (idxOfBitPos i).extractLsb' 0 3 = i := by
  revert i; decide

/-- The index field of an 8-entry format has bit 3 clear. -/
theorem idxOfBitPos_bit3 (i : BitPos) : (idxOfBitPos i).getLsbD 3 = false := by
  revert i; decide

/-- A 4-bit field with bit 3 clear is the 3-bit index of its low bits. -/
theorem idxOfBitPos_of_bit3 (n : Nibble) : n.getLsbD 3 = false → idxOfBitPos (n.extractLsb' 0 3) = n := by
  revert n; decide

namespace EncodeFields

/-- The word of the command has the fields of its row (R62). -/
def Statement (i : Instr) : Prop :=
  opField (encode i) = opcodeOf i ∧ idxField (encode i) = indexOf i ∧ dataField (encode i) = dataOf i

theorem subf (b : Byte) : Statement (.subf b) := by simp [Statement, encode, opcodeOf, indexOf, dataOf]
theorem subi (b : Byte) : Statement (.subi b) := by simp [Statement, encode, opcodeOf, indexOf, dataOf]
theorem prmf (b : Byte) : Statement (.prmf b) := by simp [Statement, encode, opcodeOf, indexOf, dataOf]
theorem prmi (b : Byte) : Statement (.prmi b) := by simp [Statement, encode, opcodeOf, indexOf, dataOf]
theorem wrs (i : Nibble) (v : Byte) : Statement (.wrs i v) := by simp [Statement, encode, opcodeOf, indexOf, dataOf]
theorem wrp (i : BitPos) (v : Byte) : Statement (.wrp i v) := by simp [Statement, encode, opcodeOf, indexOf, dataOf]
theorem inis : Statement .inis := by simp [Statement, encode, opcodeOf, indexOf, dataOf]
theorem inip : Statement .inip := by simp [Statement, encode, opcodeOf, indexOf, dataOf]
theorem rds (i : Nibble) : Statement (.rds i) := by simp [Statement, encode, opcodeOf, indexOf, dataOf]
theorem rdis (i : Nibble) : Statement (.rdis i) := by simp [Statement, encode, opcodeOf, indexOf, dataOf]
theorem rdp (i : BitPos) : Statement (.rdp i) := by simp [Statement, encode, opcodeOf, indexOf, dataOf]
theorem rdip (i : BitPos) : Statement (.rdip i) := by simp [Statement, encode, opcodeOf, indexOf, dataOf]
theorem rdst (r : Nibble) : Statement (.rdst r) := by simp [Statement, encode, opcodeOf, indexOf, dataOf]

end EncodeFields

end Sys2Proof.Laws
end

