-- ==== Sys2Proof/Laws/Step.lean ====
section
/-! SUPPORT. Laws/Step.lean: said once, everything a transaction, a step and a clock edge can do. -/

namespace Sys2Proof.Machine

theorem executeWord_of_command {w : CmdWord} {i : Instr} (h : decode w = .command i) (s : State) :
    executeWord w s = exec i s := by simp [executeWord, h]

theorem executeWord_of_reserved {w : CmdWord} {why : Reserved} (h : decode w = .reserved why) (s : State) :
    executeWord w s = .next (s.respond .illegalCmd 0) := by simp [executeWord, h]

/-- Everything a transaction can do, reserved words included. -/
theorem executeWord_effect (w : CmdWord) (s : State) :
    ∃ u st d, executeWord w s = .next (u.respond st d) ∧ Effect s u st d := by
  cases h : decode w with
  | command i => rw [executeWord_of_command h]; exact exec_effect i s
  | reserved why => exact ⟨s, _, _, executeWord_of_reserved h s, .illegal s⟩

theorem stepWith_idle {s : State} (h : s.inputs = []) (c : Config) : stepWith c s = .next s := by
  simp [stepWith, State.takeEvent, h]

theorem stepWith_reset {s : State} {rest : List HostEvent} (h : s.inputs = .reset :: rest) (c : Config) :
    stepWith c s = .next ({ s with inputs := rest }.applyReset c) := by
  simp [stepWith, State.takeEvent, h, handleEvent]

theorem stepWith_command {s : State} {w : CmdWord} {rest : List HostEvent} (h : s.inputs = .command w :: rest)
    (c : Config) : stepWith c s = executeWord w { s with inputs := rest } := by
  simp [stepWith, State.takeEvent, h, handleEvent]

/-- Everything a step can do: nothing, a reset, or a transaction. -/
theorem stepWith_cases (c : Config) (s : State) :
    (s.inputs = [] ∧ stepWith c s = .next s) ∨
    (∃ rest, s.inputs = .reset :: rest ∧ stepWith c s = .next ({ s with inputs := rest }.applyReset c)) ∨
    (∃ w rest u st d, s.inputs = .command w :: rest ∧ stepWith c s = .next (u.respond st d) ∧
      executeWord w { s with inputs := rest } = .next (u.respond st d) ∧ Effect { s with inputs := rest } u st d) := by
  rcases h : s.inputs with _ | ⟨_ | _, rest⟩
  · exact .inl ⟨rfl, stepWith_idle h c⟩
  · next w =>
    obtain ⟨u, st, d, he, hf⟩ := executeWord_effect w { s with inputs := rest }
    exact .inr (.inr ⟨w, rest, u, st, d, rfl, (stepWith_command h c).trans he, he, hf⟩)
  · exact .inr (.inl ⟨rest, rfl, stepWith_reset h c⟩)

/-- Every transaction keeps what every effect keeps. -/
theorem Effect.inputs_eq {s u : State} {st : Status} {d : Byte} (h : Effect s u st d) : u.inputs = s.inputs := by
  cases h <;> rfl

theorem Effect.responses_eq {s u : State} {st : Status} {d : Byte} (h : Effect s u st d) :
    u.responses = s.responses := by
  cases h <;> rfl

/-! Clock edges -/

theorem tick_reset (c : Config) (p : Clocked) {inp : PinIn} (h : inp.rst = true) :
    p.tick c inp = .next (p.advance (p.block.applyReset c) none) := by simp [Clocked.tick, h]

theorem tick_idle (c : Config) {p : Clocked} {inp : PinIn} (hr : inp.rst = false) (hf : p.inFlight = none)
    (hv : inp.cmdValid = false) : p.tick c inp = .next (p.advance p.block none) := by
  simp [Clocked.tick, hr, hf, hv]

theorem tick_accept (c : Config) {p : Clocked} {inp : PinIn} (hr : inp.rst = false) (hf : p.inFlight = none)
    (hv : inp.cmdValid = true) : p.tick c inp = .next (p.accept inp.cmd) := by
  simp [Clocked.tick, hr, hf, hv]

theorem tick_wait (c : Config) {p : Clocked} {inp : PinIn} {f : InFlight} (hr : inp.rst = false)
    (hf : p.inFlight = some f) (hl : f.left ≠ 1) :
    p.tick c inp = .next (p.advance p.block (some { f with left := f.left - 1 })) := by
  simp [Clocked.tick, hr, hf, hl]

theorem tick_complete (c : Config) {p : Clocked} {inp : PinIn} {f : InFlight} (hr : inp.rst = false)
    (hf : p.inFlight = some f) (hl : f.left = 1) {t : State} (ht : executeWord f.word p.block = .next t) :
    p.tick c inp = .next (p.advance t none) := by
  simp [Clocked.tick, hr, hf, hl, Clocked.complete, ht]

theorem one_le_latency (n : Nat) (w : CmdWord) (s : State) : 1 ≤ latency n w s := by
  simp [latency]

theorem latency_le (n : Nat) (w : CmdWord) (s : State) : latency n w s ≤ Config.latencyBound + 1 := by
  have : Config.latencyDraw n w s % (Config.latencyBound + 1) < Config.latencyBound + 1 :=
    Nat.mod_lt _ (Nat.succ_pos _)
  simp only [latency]
  omega

end Sys2Proof.Machine
end

