-- ==== Sys2Proof/Laws/Safety.lean ====
section
/-! SUPPORT. Laws/Safety.lean: the invariant's parts speak of one engine each, so they carry over between states that agree
on that engine; what each effect leaves as it was. -/

namespace Sys2Proof.Machine

theorem State.SameSub.refl (s : State) : s.SameSub s := ⟨rfl, rfl, rfl, rfl, rfl⟩

theorem State.SamePerm.refl (s : State) : s.SamePerm s := ⟨rfl, rfl, rfl, rfl, rfl⟩

theorem State.SameSub.trans {s t u : State} (h : s.SameSub t) (k : t.SameSub u) : s.SameSub u :=
  ⟨k.1.trans h.1, k.2.1.trans h.2.1, k.2.2.1.trans h.2.2.1, k.2.2.2.1.trans h.2.2.2.1, k.2.2.2.2.trans h.2.2.2.2⟩

theorem State.SamePerm.trans {s t u : State} (h : s.SamePerm t) (k : t.SamePerm u) : s.SamePerm u :=
  ⟨k.1.trans h.1, k.2.1.trans h.2.1, k.2.2.1.trans h.2.2.1, k.2.2.2.1.trans h.2.2.2.1, k.2.2.2.2.trans h.2.2.2.2⟩

theorem State.SameSub.readS {s t : State} (h : s.SameSub t) (i : Nibble) : t.readS i = s.readS i := by
  rw [State.readS, State.readS, h.1]

theorem State.SameSub.readIS {s t : State} (h : s.SameSub t) (i : Nibble) : t.readIS i = s.readIS i := by
  rw [State.readIS, State.readIS, h.2.1]

theorem State.SamePerm.readP {s t : State} (h : s.SamePerm t) (i : BitPos) : t.readP i = s.readP i := by
  rw [State.readP, State.readP, h.1]

theorem State.SamePerm.readIP {s t : State} (h : s.SamePerm t) (i : BitPos) : t.readIP i = s.readIP i := by
  rw [State.readIP, State.readIP, h.2.1]

theorem State.SameSub.tablesValid {s t : State} (h : s.SameSub t) (v : s.SubTablesValid) : t.SubTablesValid := by
  intro i
  rw [h.readS, h.readIS]
  exact v i

theorem State.SamePerm.tablesValid {s t : State} (h : s.SamePerm t) (v : s.PermTablesValid) : t.PermTablesValid := by
  intro i
  rw [h.readP, h.readIP]
  exact v i

theorem State.SameSub.recordValid {s t : State} (h : s.SameSub t) (v : s.SubRecordValid) : t.SubRecordValid := by
  simp only [State.SubRecordValid, h.readS, h.2.2.1, h.2.2.2.1, h.2.2.2.2]
  exact v

theorem State.SamePerm.recordValid {s t : State} (h : s.SamePerm t) (v : s.PermRecordValid) : t.PermRecordValid := by
  simp only [State.PermRecordValid, h.readP, h.2.2.1, h.2.2.2.1, h.2.2.2.2]
  exact v

/-! One lemma for each update: which engine it leaves as it was. -/

theorem sameSub_respond (s : State) (st : Status) (d : Byte) : s.SameSub (s.respond st d) := .refl s

theorem samePerm_respond (s : State) (st : Status) (d : Byte) : s.SamePerm (s.respond st d) := .refl s

theorem samePerm_writeS (s : State) (i : Nibble) (v : Byte) : s.SamePerm (s.writeS i v) := ⟨rfl, rfl, rfl, rfl, rfl⟩

theorem sameSub_writeP (s : State) (i : BitPos) (v : Byte) : s.SameSub (s.writeP i v) := ⟨rfl, rfl, rfl, rfl, rfl⟩

theorem samePerm_commitIS (s : State) (inv : Vector (Fin 16) 16) : s.SamePerm (s.commitIS inv) :=
  ⟨rfl, rfl, rfl, rfl, rfl⟩

theorem sameSub_commitIP (s : State) (inv : Vector (Fin 8) 8) : s.SameSub (s.commitIP inv) := ⟨rfl, rfl, rfl, rfl, rfl⟩

theorem samePerm_recordSub (s : State) (info val : Byte) :
    s.SamePerm (s.recordConfigError .substitution info val) := ⟨rfl, rfl, rfl, rfl, rfl⟩

theorem sameSub_recordPerm (s : State) (info val : Byte) :
    s.SameSub (s.recordConfigError .permutation info val) := ⟨rfl, rfl, rfl, rfl, rfl⟩

/-- On an engine that is not `UNINIT`, no command changes anything of the S engine. -/
theorem Effect.sameSub {s u : State} {st : Status} {d : Byte} (h : Effect s u st d) (hs : s.sState ≠ .uninit) :
    s.SameSub u := by
  cases h with
  | answers => exact .refl _
  | writesS i v he => exact absurd he hs
  | writesP i v => exact sameSub_writeP s i v
  | readiesS inv he => exact absurd he hs
  | readiesP inv => exact sameSub_commitIP s inv
  | failsS c i v he => exact absurd he hs
  | failsP => exact sameSub_recordPerm s _ _

/-- On an engine that is not `UNINIT`, no command changes anything of the P engine. -/
theorem Effect.samePerm {s u : State} {st : Status} {d : Byte} (h : Effect s u st d) (hs : s.pState ≠ .uninit) :
    s.SamePerm u := by
  cases h with
  | answers => exact .refl _
  | writesS i v => exact samePerm_writeS s i v
  | writesP i v he => exact absurd he hs
  | readiesS inv => exact samePerm_commitIS s inv
  | readiesP inv he => exact absurd he hs
  | failsS => exact samePerm_recordSub s _ _
  | failsP c i v he => exact absurd he hs

/-- Everything a run of command words can do to an engine that is not `UNINIT`: nothing (the run always ends). -/
theorem runWords_keeps (words : List CmdWord) : ∀ s : State, ∃ u, runWords words s = .next u ∧
    (s.sState ≠ .uninit → s.SameSub u) ∧ (s.pState ≠ .uninit → s.SamePerm u) := by
  induction words with
  | nil => intro s; exact ⟨s, rfl, fun _ => .refl s, fun _ => .refl s⟩
  | cons w rest ih =>
    intro s
    obtain ⟨v, st, d, he, hf⟩ := executeWord_effect w s
    obtain ⟨u, hu, hsub, hperm⟩ := ih (v.respond st d)
    refine ⟨u, by simp only [runWords, he, hu], fun hs => ?_, fun hp => ?_⟩
    · have h1 := hf.sameSub hs
      exact (h1.trans (sameSub_respond v st d)).trans (hsub (by rw [State.respond_sState, h1.2.2.1]; exact hs))
    · have h1 := hf.samePerm hp
      exact (h1.trans (samePerm_respond v st d)).trans (hperm (by rw [State.respond_pState, h1.2.2.1]; exact hp))

end Sys2Proof.Machine
end

