-- ==== Sys2Proof/Tests/Slice0.lean ====
section
/-! SUPPORT. Tests/Slice0.lean: tests with results taken from the spec (95_test_vectors.md and the examples of the command
rules), and, for each statement with hypotheses, a witness that meets them. -/

namespace Sys2Proof.Tests

open Sys2Proof Sys2Proof.Machine

/-! Small states -/

/-- Both engines READY with the default tables; `IS` and `IP` as 95_test_vectors.md lists them. -/
def ready : State :=
  { State.reset with
    tabIS := #v[0xE, 0x3, 0x4, 0x8, 0x1, 0xC, 0xA, 0xF, 0x7, 0xD, 0x9, 0x6, 0xB, 0x2, 0x0, 0x5]
    tabIP := #v[3, 0, 2, 4, 6, 1, 7, 5]
    sState := .ready
    pState := .ready }

/-- Program P3 after event 3: `S[5]` repeats `S[1]`. -/
def failedS : State :=
  { State.reset with
    tabS := #v[0xE, 0x4, 0xD, 0x1, 0x2, 0x4, 0xB, 0x8, 0x3, 0xA, 0x6, 0xC, 0x5, 0x9, 0x0, 0x7]
    sErrInfo := 0x25
    sErrVal := 0x04
    sState := .failed }

/-- Program P5 after event 15: `P[2]` is 8. -/
def failedP : State :=
  { State.reset with
    tabP := #v[1, 5, 8, 0, 3, 7, 4, 6]
    pErrInfo := 0x52
    pErrVal := 0x08
    pState := .failed }

/-- The reset state with another forward S table. -/
def withS (t : Vector Byte 16) : State := { State.reset with tabS := t }

/-- The reset state with another forward P table. -/
def withP (t : Vector Byte 8) : State := { State.reset with tabP := t }

/-- The state after one command word. -/
def after (w : CmdWord) (s : State) : State :=
  match executeWord w s with
  | .next t => t
  | .fault _ => s
  | .refused _ => s

/-- The response word to one command word. -/
def answer (w : CmdWord) (s : State) : Option RspWord := (answerTo w s).map Response.word

/-- The S table of the default configuration with one entry changed. -/
def sTable (i : Fin 16) (v : Byte) : Vector Byte 16 := Config.thisHardware.sReset.set i.val v

/-- The P table of the default configuration with one entry changed. -/
def pTable (i : Fin 8) (v : Byte) : Vector Byte 8 := Config.thisHardware.pReset.set i.val v

/-! WellFormed: the one check, with an ill-formed term it refuses and the largest index it takes -/

theorem test_wellFormed_refuses_rdst_5 : (Instr.rdst 5).WellFormed = false := by decide
theorem test_wellFormed_refuses_rdst_15 : (Instr.rdst 15).WellFormed = false := by decide
theorem test_wellFormed_takes_rdst_4 : (Instr.rdst 4).WellFormed = true := by decide

/-! Decode: each command's word written out bit by bit from its pattern in R53, operand bits chosen to show their order -/

theorem test_decode_subf : decode 0b0001000010110010 = .command (.subf 0xB2) := by decide
theorem test_decode_subi : decode 0b0010000011000001 = .command (.subi 0xC1) := by decide
theorem test_decode_prmf : decode 0b0011000010110010 = .command (.prmf 0xB2) := by decide
theorem test_decode_prmi : decode 0b0100000001101010 = .command (.prmi 0x6A) := by decide
theorem test_decode_wrs : decode 0b0101101100000111 = .command (.wrs 11 7) := by decide
theorem test_decode_wrp : decode 0b0110011000000111 = .command (.wrp 6 7) := by decide
theorem test_decode_inis : decode 0b0111000000000000 = .command .inis := by decide
theorem test_decode_inip : decode 0b1000000000000000 = .command .inip := by decide
theorem test_decode_rds : decode 0b1001101100000000 = .command (.rds 11) := by decide
theorem test_decode_rdis : decode 0b1010110100000000 = .command (.rdis 13) := by decide
theorem test_decode_rdp : decode 0b1011000100000000 = .command (.rdp 1) := by decide
theorem test_decode_rdip : decode 0b1100011000000000 = .command (.rdip 6) := by decide
theorem test_decode_rdst : decode 0b1101010000000000 = .command (.rdst 4) := by decide

/-- The nearest reserved words of table T9, each with the reason it gives. -/
theorem test_decode_reserved :
    decode 0x11B3 = .reserved .idxNotZero ∧ decode 0x446B = .reserved .idxNotZero ∧
    decode 0x6806 = .reserved .idxBit3NotZero ∧ decode 0x7001 = .reserved .dataNotZero ∧
    decode 0x8800 = .reserved .idxNotZero ∧ decode 0x9F01 = .reserved .dataNotZero ∧
    decode 0xB800 = .reserved .idxBit3NotZero ∧ decode 0xC510 = .reserved .dataNotZero ∧
    decode 0xD500 = .reserved .statusIndex ∧ decode 0xD401 = .reserved .dataNotZero ∧
    decode 0x0FFF = .reserved .opcode ∧ decode 0xE000 = .reserved .opcode ∧ decode 0xFFFF = .reserved .opcode := by
  decide

theorem test_decodeTableWord :
    decodeTableWord 16 0x5301 = some (.wrs 3 0x01) ∧ decodeTableWord 16 0xD500 = none ∧
    decodeTableWord 16 0x17000 = none := by decide

/-! One step of each command (vectors T4, T5, T8, programs P3, P5) -/

theorem test_subf_ready : answer 0x10B3 ready = some 0x0C1 := by decide
theorem test_subf_failed : answer 0x10B3 failedS = some 0x200 := by decide
theorem test_subi_ready : answer 0x20E0 ready = some 0x00E := by decide
theorem test_subi_uninit : answer 0x20C1 State.reset = some 0x200 := by decide
theorem test_prmf_gathers : answer 0x3001 ready = some 0x008 ∧ answer 0x30B3 ready = some 0x06B := by decide
theorem test_prmf_failed : answer 0x30B3 failedP = some 0x200 := by decide
theorem test_prmi_ready : answer 0x4001 ready = some 0x002 ∧ answer 0x40B3 ready = some 0x0EA := by decide
theorem test_prmi_uninit : answer 0x406B State.reset = some 0x200 := by decide
theorem test_wrs_stores_all_bits :
    (after 0x5FFF State.reset).readS 15 = 0xFF ∧ answer 0x5FFF State.reset = some 0x000 := by decide
theorem test_wrs_locked : answer 0x50FF ready = some 0x300 ∧ answer 0x550F failedS = some 0x300 := by decide
theorem test_wrp_stores_all_bits :
    (after 0x67FF State.reset).readP 7 = 0xFF ∧ (after 0x67FF State.reset).readP 6 = 4 := by decide
theorem test_wrp_locked : answer 0x6202 failedP = some 0x300 := by decide
theorem test_inis_derives : (after 0x7000 State.reset).tabIS = ready.tabIS ∧
    answer 0x7000 State.reset = some 0x000 := by decide
theorem test_inis_lower_index_wins :
    answer 0x7000 (withS ((sTable 1 0xE).set 3 0x10)) = some 0x121 ∧
    (after 0x7000 (withS ((sTable 1 0xE).set 3 0x10))).sErrVal = 0x0E := by decide
theorem test_inip_derives : (after 0x8000 State.reset).tabIP = ready.tabIP ∧
    answer 0x8000 ready = some 0x300 := by decide
theorem test_inip_range :
    answer 0x8000 (withP (pTable 2 8)) = some 0x152 ∧ (after 0x8000 (withP (pTable 2 8))).pErrVal = 0x08 := by decide
theorem test_rds : answer 0x9B00 State.reset = some 0x00C ∧ answer 0x9500 failedS = some 0x004 := by decide
theorem test_rdis : answer 0xAC00 ready = some 0x00B ∧ answer 0xA000 failedS = some 0x200 := by decide
theorem test_rdp : answer 0xB700 State.reset = some 0x006 ∧ answer 0xB200 failedP = some 0x008 := by decide
theorem test_rdip : answer 0xC500 ready = some 0x001 ∧ answer 0xC700 State.reset = some 0x200 := by decide
theorem test_rdst_status : answer 0xD000 ready = some 0x005 ∧ answer 0xD000 failedP = some 0x008 := by decide
theorem test_rdst_records :
    answer 0xD100 failedS = some 0x025 ∧ answer 0xD200 failedS = some 0x004 ∧
    answer 0xD300 failedP = some 0x052 ∧ answer 0xD400 failedP = some 0x008 := by decide
theorem test_reserved : answer 0x7001 ready = some 0x400 ∧ answer 0x6800 failedP = some 0x400 := by decide

/-! `InvertTable` on the tables of T6 and T7 -/

theorem test_invertTable_range_before_duplicate :
    invertTable ((sTable 2 0x20).set 4 0x20) = .err .range 2 0x20 := by decide
theorem test_invertTable_upper_bits_count : invertTable (sTable 5 0x1F) = .err .range 5 0x1F := by decide
theorem test_invertTable_last_duplicate : invertTable (sTable 15 0) = .err .duplicate 15 0 := by decide
theorem test_invertTable_p_duplicate : invertTable (pTable 7 1) = .err .duplicate 7 1 := by decide
theorem test_invertTable_rotation :
    invertTable (#v[1, 2, 3, 4, 5, 6, 7, 0] : Vector Byte 8) = .ok #v[7, 0, 1, 2, 3, 4, 5, 6] := by decide

/-! Reset, the host's words and one reset event in the middle of a life cycle (program P3, events 15 to 18) -/

theorem test_withFetchWord_step : ∃ t, step (State.reset.withFetchWord 16 0x7000) = .next t ∧ t.sState = .ready ∧
    t.inputs = [] := ⟨_, rfl, rfl, rfl⟩

theorem test_reset_event : ∃ t, step { failedS with inputs := [.reset] } = .next t ∧ t.sState = .uninit ∧
    t.sErrInfo = 0 ∧ t.readS 5 = 0xF := ⟨_, rfl, rfl, rfl, rfl⟩

/-! Witnesses: for each statement with hypotheses, data that meet them, clause by clause -/

theorem witness_DecodeUndoesEncode : (Instr.rdst 4).WellFormed = true ∧ (Instr.wrp 7 0xFF).WellFormed = true := by
  decide

theorem witness_EncodeUndoesDecode :
    decode 0xC700 = .command (.rdip 7) ∧ decode 0x5FFF = .command (.wrs 15 0xFF) := by decide

/-- Each of the five clauses of R59, at the edge of its range. -/
theorem witness_ReservedWord :
    ReservedWord 0xE000 ∧ ReservedWord 0x8100 ∧ ReservedWord 0xB800 ∧ ReservedWord 0x9F01 ∧ ReservedWord 0xD500 ∧
    ¬ ReservedWord 0xD400 ∧ ¬ ReservedWord 0xB700 := by
  refine ⟨?_, ?_, ?_, ?_, ?_, ?_, ?_⟩ <;> (unfold ReservedWord; decide)

theorem witness_ReservedWordsAreIllegal :
    { ready with inputs := [.command 0xE000] }.inputs = .command 0xE000 :: [] ∧ ReservedWord 0xE000 :=
  ⟨rfl, witness_ReservedWord.1⟩

theorem witness_StepRunsDecodedCommand :
    { ready with inputs := [.command 0x10B3, .reset] }.inputs = .command 0x10B3 :: [.reset] ∧
    decode 0x10B3 = .command (.subf 0xB3) ∧ (Instr.subf 0xB3).WellFormed = true := ⟨rfl, by decide, by decide⟩

theorem witness_OneResponsePerCommand :
    { ready with inputs := [.command 0] }.inputs = .command 0 :: [] ∧
    { ready with inputs := [.reset] }.inputs = .reset :: [] ∧ ready.inputs = [] := ⟨rfl, rfl, rfl⟩

theorem witness_ResetGivesResetState :
    { failedS with inputs := [.reset] }.inputs = .reset :: [] ∧
    (PinIn.mk true true 0x7000).rst = true := ⟨rfl, rfl⟩

/-- An engine not READY, for which `IS` may be anything, and one READY, for which it is the table itself. -/
theorem witness_InverseTablesUnobservableUnlessReady :
    (State.reset.sState = .ready → Vector.replicate 16 0xA = State.reset.tabIS) ∧
    (State.reset.pState = .ready → Vector.replicate 8 5 = State.reset.tabIP) ∧
    (ready.sState = .ready ∧ ready.pState = .ready) := by decide

/-- Every case of the order of checks is met. -/
theorem witness_StatusFollowsOrderOfChecks :
    ReservedWord 0xD500 ∧
    (decode 0x10B3 = .command (.subf 0xB3) ∧ stateRefusal (.subf 0xB3) failedS = some .notReady) ∧
    (decode 0x67FF = .command (.wrp 7 0xFF) ∧ stateRefusal (.wrp 7 0xFF) ready = some .locked) ∧
    (decode 0x7000 = .command .inis ∧ stateRefusal .inis State.reset = none) ∧
    (decode 0x8000 = .command .inip ∧ stateRefusal .inip State.reset = none) ∧
    (decode 0x9000 = .command (.rds 0) ∧ stateRefusal (.rds 0) failedS = none) :=
  ⟨by unfold ReservedWord; decide, by decide⟩

theorem isBijection_iff {n : Nat} (t : Vector Byte n) : IsBijection t ↔
    ∀ v : Fin n, ∃ i : Fin n, (t.get i).toNat = v.val ∧ ∀ j : Fin n, (t.get j).toNat = v.val → j = i := Iff.rfl

theorem witness_bijections : IsBijection State.reset.tabS ∧ IsBijection State.reset.tabP := by
  rw [isBijection_iff, isBijection_iff]; decide

theorem witness_no_bijections : ¬ IsBijection failedS.tabS ∧ ¬ IsBijection failedP.tabP := by
  rw [isBijection_iff, isBijection_iff]; decide

/-- One refusal of each kind, with the response the statement speaks of. -/
theorem witness_RefusalsLeaveNoTrace :
    (∃ t, executeWord 0x10B3 failedS = .next t ∧ t.responses = failedS.responses ++ [⟨.notReady, 0⟩]) ∧
    (∃ t, executeWord 0x7000 ready = .next t ∧ t.responses = ready.responses ++ [⟨.locked, 0⟩]) ∧
    (∃ t, executeWord 0x7001 ready = .next t ∧ t.responses = ready.responses ++ [⟨.illegalCmd, 0⟩]) :=
  ⟨⟨_, rfl, rfl⟩, ⟨_, rfl, rfl⟩, ⟨_, rfl, rfl⟩⟩

/-- The block idle at its pins. -/
def idlePins : Clocked := { block := ready, inFlight := none, accepted := 0, cycle := 0 }

/-- A cycle with no command and no reset. -/
def quiet : PinIn := { rst := false, cmdValid := false, cmd := 0 }

/-- A cycle that presents a command. -/
def present : PinIn := { rst := false, cmdValid := true, cmd := 0x10B3 }

/-- The accepting edge alone (the shortest run of the statement), and the run that ends where the response is given. -/
theorem witness_AcceptedCommandAnsweredAfterLatency :
    idlePins.inFlight = none ∧ present.rst = false ∧ present.cmdValid = true ∧ present.cmd = 0x10B3 ∧
    quiet.rst = false ∧ ([] : List PinIn).length < latency idlePins.accepted 0x10B3 idlePins.block ∧
    ∃ later : List PinIn, (∀ x ∈ later, x.rst = false) ∧
      later.length < latency idlePins.accepted 0x10B3 idlePins.block ∧
      later.length + 1 = latency idlePins.accepted 0x10B3 idlePins.block := by
  have h := one_le_latency idlePins.accepted 0x10B3 idlePins.block
  refine ⟨rfl, rfl, rfl, rfl, rfl, h, List.replicate (latency idlePins.accepted 0x10B3 idlePins.block - 1) quiet, ?_, ?_, ?_⟩
  · intro x hx; rw [List.eq_of_mem_replicate hx]; rfl
  · simp only [List.length_replicate]; omega
  · simp only [List.length_replicate]; omega

/-- Each of the three cases of an edge: reset, nothing given, and a response given. -/
theorem witness_ClockEdgesRefineTransactions :
    (PinIn.mk true false 0).rst = true ∧ (quiet.rst = false ∧ (idlePins.out quiet).rspValid = false) ∧
    (({ idlePins with inFlight := some ⟨0x10B3, 1⟩ } : Clocked).out quiet).rspValid = true := ⟨rfl, ⟨rfl, rfl⟩, rfl⟩

theorem witness_SubByteLooksUpEachNibble : ∀ i : Nibble, (entry16 State.reset.tabS i).toNat < 16 := by decide

theorem witness_PermByteGathersBits : ∀ i : BitPos, (entry8 State.reset.tabP i).toNat < 8 := by decide

/-- `InvertTable` gives each of its three answers (T6). -/
theorem witness_InvertTable :
    invertTable (sTable 0 0x10) = .err .range 0 0x10 ∧ invertTable (sTable 5 4) = .err .duplicate 5 4 ∧
    invertTable State.reset.tabP = .ok #v[3, 0, 2, 4, 6, 1, 7, 5] := by decide

theorem witness_DoubleInverseIsTheTable :
    16 ≤ 256 ∧ invertTable State.reset.tabS = .ok #v[14, 3, 4, 8, 1, 12, 10, 15, 7, 13, 9, 6, 11, 2, 0, 5] := by decide

/-- The states the command statements speak of: READY, not READY (both ways), UNINIT, not UNINIT. -/
theorem witness_engine_states :
    (ready.sState = .ready ∧ ready.pState = .ready) ∧ (State.reset.sState ≠ .ready ∧ failedS.sState ≠ .ready) ∧
    (State.reset.pState ≠ .ready ∧ failedP.pState ≠ .ready) ∧
    (State.reset.sState = .uninit ∧ State.reset.pState = .uninit) ∧
    (ready.sState ≠ .uninit ∧ failedS.sState ≠ .uninit ∧ failedS.sState = .failed) ∧
    (ready.pState ≠ .uninit ∧ failedP.pState ≠ .uninit ∧ failedP.pState = .failed) := by decide

/-- The must-be-zero operands of the reserved forms, at the least value each statement takes. -/
theorem witness_reserved_operands :
    (1 : Nibble) ≠ 0 ∧ (1 : Byte) ≠ 0 ∧ 8 ≤ (8 : Nibble).toNat ∧ 5 ≤ (5 : Nibble).toNat ∧ (4 : Nibble).toNat ≤ 4 ∧
    (15 : Nibble).toNat = 15 := by decide

theorem ready_inv : ready.Inv where
  subTables := by unfold State.SubTablesValid; decide
  permTables := by unfold State.PermTablesValid; decide
  subRecord := by unfold State.SubRecordValid; exact ⟨fun _ => ⟨rfl, rfl⟩, fun h => by cases h⟩
  permRecord := by unfold State.PermRecordValid; exact ⟨fun _ => ⟨rfl, rfl⟩, fun h => by cases h⟩

theorem failedS_inv : failedS.Inv where
  subTables := fun h => by cases h
  permTables := fun h => by cases h
  subRecord := ⟨fun h => absurd rfl h, fun _ => ⟨5, rfl, .inr ⟨by decide, 1, by decide, rfl⟩⟩⟩
  permRecord := ⟨fun _ => ⟨rfl, rfl⟩, fun h => by cases h⟩

theorem failedP_inv : failedP.Inv where
  subTables := fun h => by cases h
  permTables := fun h => by cases h
  subRecord := ⟨fun _ => ⟨rfl, rfl⟩, fun h => by cases h⟩
  permRecord := ⟨fun h => absurd rfl h, fun _ => ⟨2, rfl, .inl ⟨by decide, by decide⟩⟩⟩

theorem witness_SubfSubstitutesForward : ready.Inv ∧ ready.sState = .ready ∧ failedS.sState ≠ .ready ∧ (1 : Nibble) ≠ 0 :=
  ⟨ready_inv, rfl, by decide, by decide⟩

theorem witness_SubiSubstitutesInverse : ready.sState = .ready ∧ State.reset.sState ≠ .ready ∧
    ∃ t, exec .inis State.reset = .next t := ⟨rfl, by decide, _, rfl⟩

theorem witness_PrmfPermutesForward : ready.Inv ∧ ready.pState = .ready ∧ failedP.pState ≠ .ready :=
  ⟨ready_inv, rfl, by decide⟩

theorem witness_PrmiPermutesInverse : ready.Inv ∧ ready.pState = .ready ∧ State.reset.pState ≠ .ready ∧
    ∃ t, exec .inip State.reset = .next t := ⟨ready_inv, rfl, by decide, _, rfl⟩

/-- A write of 16 at an entry below which nothing offends, and the locked forms. -/
theorem witness_WrsWritesOneEntry :
    State.reset.sState = .uninit ∧ 16 ≤ (0x10 : Byte).toNat ∧ (∃ t, exec (.wrs 3 0x10) State.reset = .next t) ∧
    (∀ j : Nibble, j < 3 → (State.reset.readS j).toNat < 16 ∧
      ∀ k : Nibble, k < j → State.reset.readS k ≠ State.reset.readS j) ∧
    failedS.sState ≠ .uninit ∧ ∃ t, exec .inis State.reset = .next t :=
  ⟨rfl, by decide, ⟨_, rfl⟩, by decide, by decide, ⟨_, rfl⟩⟩

theorem witness_WrpWritesOneEntry :
    State.reset.pState = .uninit ∧ 8 ≤ (8 : Byte).toNat ∧ (∃ t, exec (.wrp 2 8) State.reset = .next t) ∧
    (∀ j : BitPos, j < 2 → (State.reset.readP j).toNat < 8 ∧
      ∀ k : BitPos, k < j → State.reset.readP k ≠ State.reset.readP j) ∧
    failedP.pState ≠ .uninit ∧ 8 ≤ (8 : Nibble).toNat :=
  ⟨rfl, by decide, ⟨_, rfl⟩, by decide, by decide, by decide⟩

/-- The corner cases of R82: the identity table, `S[0]` = 0x10, and `S[15]` = `S[14]` with nothing else wrong. -/
theorem witness_InisValidatesAndDerives :
    (invertTable State.reset.tabS = .ok #v[14, 3, 4, 8, 1, 12, 10, 15, 7, 13, 9, 6, 11, 2, 0, 5]) ∧
    (invertTable (withS (sTable 5 4)).tabS = .err .duplicate 5 4 ∧ (withS (sTable 5 4)).sState = .uninit) ∧
    (∀ i : Nibble, ((withS #v[0, 1, 2, 3, 4, 5, 6, 7, 8, 9, 10, 11, 12, 13, 14, 15]).readS i).toNat = i.toNat) ∧
    (withS (sTable 0 0x10)).readS 0 = 0x10 ∧
    (∀ i : Nibble, i < 15 → ((withS (sTable 15 0)).readS i).toNat < 16 ∧
      ∀ j : Nibble, j < i → (withS (sTable 15 0)).readS j ≠ (withS (sTable 15 0)).readS i) ∧
    (withS (sTable 15 0)).readS 15 = (withS (sTable 15 0)).readS 14 := by decide

theorem witness_InisValidatesAndDerives_next :
    ∃ t, exec .inis (withS #v[0, 1, 2, 3, 4, 5, 6, 7, 8, 9, 10, 11, 12, 13, 14, 15]) = .next t := ⟨_, rfl⟩

theorem witness_InipValidatesAndDerives :
    (invertTable State.reset.tabP = .ok #v[3, 0, 2, 4, 6, 1, 7, 5]) ∧
    (invertTable (withP (pTable 0 0x0E)).tabP = .err .range 0 0x0E ∧ (withP (pTable 0 0x0E)).pState = .uninit) ∧
    (withP (pTable 2 8)).readP 2 = 0x08 ∧ (withP (pTable 7 0xFF)).readP 7 = 0xFF ∧
    (∀ i : BitPos, ((withP #v[0, 1, 2, 3, 4, 5, 6, 7]).readP i).toNat = i.toNat) := by decide

theorem witness_InipValidatesAndDerives_next : ∃ t, exec .inip (withP #v[0, 1, 2, 3, 4, 5, 6, 7]) = .next t := ⟨_, rfl⟩

theorem witness_RdsReadsForwardTable : failedS.Inv ∧ failedS.sState = .failed ∧ (1 : Byte) ≠ 0 :=
  ⟨failedS_inv, rfl, by decide⟩

theorem witness_RdpReadsForwardTable : failedP.Inv ∧ failedP.pState = .failed ∧ 8 ≤ (8 : Nibble).toNat :=
  ⟨failedP_inv, rfl, by decide⟩

theorem witness_ReadingCommandsChangeNothing :
    (Instr.subi 0xC1).onlyReads = true ∧ (Instr.rdst 4).onlyReads = true := by decide

/-- Each writing command answers a next state on each of its paths. -/
theorem witness_WritingCommandsFrame :
    (∃ t, exec (.wrs 15 0xFF) State.reset = .next t) ∧ (∃ t, exec (.wrp 7 0xFF) ready = .next t) ∧
    (∃ t, exec .inis State.reset = .next t ∧ t.sState = .ready) ∧
    (∃ t, exec .inis (withS (sTable 5 4)) = .next t ∧ t.sState = .failed) ∧
    (∃ t, exec .inip State.reset = .next t ∧ t.pState = .ready) ∧
    ∃ t, exec .inip (withP (pTable 2 8)) = .next t ∧ t.pState = .failed :=
  ⟨⟨_, rfl⟩, ⟨_, rfl⟩, ⟨_, rfl, rfl⟩, ⟨_, rfl, rfl⟩, ⟨_, rfl, rfl⟩, ⟨_, rfl, rfl⟩⟩

theorem witness_EngineStateTransitions :
    (∃ t, stepWith Config.thisHardware { failedS with inputs := [.reset] } = .next t ∧ t.sState = .uninit) ∧
    ∃ t, stepWith Config.thisHardware { State.reset with inputs := [.command 0x7000] } = .next t ∧
      t.sState = .ready ∧ t.pState = .uninit := ⟨⟨_, rfl, rfl⟩, ⟨_, rfl, rfl, rfl⟩⟩

theorem witness_TablesImmutableOnceReady :
    ready.sState = .ready ∧ ready.pState = .ready ∧ ∃ t, executeWord 0x50FF ready = .next t := ⟨rfl, rfl, _, rfl⟩

theorem witness_StepKeepsTheInvariant :
    ready.Inv ∧ failedS.Inv ∧ failedP.Inv ∧
    ∃ t, stepWith Config.thisHardware { ready with inputs := [.command 0x10B3] } = .next t :=
  ⟨ready_inv, failedS_inv, failedP_inv, _, rfl⟩

/-- Both engines READY in a state that a run from reset reaches. -/
theorem witness_reachable_ready : ∃ s : State, Reachable Config.thisHardware s ∧ s.sState = .ready ∧ s.pState = .ready :=
  ⟨_, .step (.step (.start [.command 0x7000, .command 0x8000]) rfl) rfl, rfl, rfl⟩

/-- Both engines FAILED in a state that a run from reset reaches. -/
theorem witness_reachable_failed : ∃ s : State, Reachable Config.thisHardware s ∧ s.sState = .failed ∧ s.pState = .failed :=
  ⟨_, .step (.step (.step (.step (.start [.command 0x5504, .command 0x6208, .command 0x7000, .command 0x8000]) rfl) rfl)
    rfl) rfl, rfl, rfl⟩

theorem witness_OnlyFailingInitWritesErrorRecord :
    (∃ t, executeWord 0x7000 (withS (sTable 5 4)) = .next t ∧ t.sState = .failed) ∧
    ∃ t, executeWord 0xD100 failedS = .next t := ⟨⟨_, rfl, rfl⟩, ⟨_, rfl⟩⟩

theorem witness_ConfigErrorOnlyFromInitialisation :
    (∃ t, executeWord 0x7000 (withS (sTable 5 4)) = .next t ∧ t.responses = [] ++ [⟨.configError, 0x25⟩] ∧
      ∃ u, runWords [0x7000] t = .next u) ∧
    ∃ t, executeWord 0x8000 (withP (pTable 2 8)) = .next t ∧ t.responses = [] ++ [⟨.configError, 0x52⟩] :=
  ⟨⟨_, rfl, rfl, _, rfl⟩, ⟨_, rfl, rfl⟩⟩

theorem witness_SecondInitialisationIsLocked :
    (∃ t, exec .inis State.reset = .next t) ∧ ∃ t, exec .inip (withP (pTable 2 8)) = .next t := ⟨⟨_, rfl⟩, ⟨_, rfl⟩⟩

theorem witness_ReadyResponseDependsOnWordAlone : ready.sState = .ready ∧ ready.pState = .ready := by decide

/-- Two states that agree on one engine and differ on the other. -/
theorem witness_EnginesAreIndependent :
    (Instr.rdis 15).usesSub = true ∧ State.reset.SameSub failedP ∧ State.reset ≠ failedP ∧
    (Instr.rdip 7).usesPerm = true ∧ State.reset.SamePerm failedS ∧ State.reset ≠ failedS :=
  ⟨rfl, ⟨rfl, rfl, rfl, rfl, rfl⟩, by decide, rfl, ⟨rfl, rfl, rfl, rfl, rfl⟩, by decide⟩

theorem witness_SubstitutionRoundTrip :
    ready.Inv ∧ ready.sState = .ready ∧
    exec (.subf 0xB3) ready = .next { ready with responses := ready.responses ++ [⟨.ok, 0xC1⟩] } ∧
    exec (.subi 0xB3) ready = .next { ready with responses := ready.responses ++ [⟨.ok, 0x68⟩] } :=
  ⟨ready_inv, rfl, rfl, rfl⟩

theorem witness_PermutationRoundTrip :
    ready.Inv ∧ ready.pState = .ready ∧
    exec (.prmf 0xB3) ready = .next { ready with responses := ready.responses ++ [⟨.ok, 0x6B⟩] } ∧
    exec (.prmi 0xB3) ready = .next { ready with responses := ready.responses ++ [⟨.ok, 0xEA⟩] } :=
  ⟨ready_inv, rfl, rfl, rfl⟩

end Sys2Proof.Tests
end

/-! The two engines share nothing (R2, R18): a relational reading of the commands. Two runs of one command of an engine,
from states that agree on that engine, are followed side by side; the rules below say what each shared operation does to
such a pair, once for both engines. -/

namespace Sys2Proof.Machine

/-- The engine whose table is of the other kind (R2). -/
def TableKind.other : TableKind → TableKind
  | .substitution => .permutation
  | .permutation => .substitution

/-- Two states agree on everything of one engine: `SameSub` or `SamePerm`. -/
def State.SameEngine : TableKind → State → State → Prop
  | .substitution => State.SameSub
  | .permutation => State.SamePerm

theorem State.SameEngine.refl (k : TableKind) (s : State) : s.SameEngine k s := by
  cases k with
  | substitution => exact State.SameSub.refl s
  | permutation => exact State.SamePerm.refl s

/-- Giving a response touches neither engine. -/
@[simp] theorem State.sameEngine_respond_left {k : TableKind} {s t : State} {st : Status} {d : Byte} :
    (s.respond st d).SameEngine k t ↔ s.SameEngine k t := by
  cases k with
  | substitution => exact Iff.rfl
  | permutation => exact Iff.rfl

@[simp] theorem State.sameEngine_respond_right {k : TableKind} {s t : State} {st : Status} {d : Byte} :
    s.SameEngine k (t.respond st d) ↔ s.SameEngine k t := by
  cases k with
  | substitution => exact Iff.rfl
  | permutation => exact Iff.rfl

/-- What independence asks of the results `a` and `b` of one command of engine `k`, run from `s` and from `u`: both
answer, with the same response, in states that agree on `k`, and neither run touches the other engine. -/
def AnswerAlike (k : TableKind) (s u : State) (a b : Result) : Prop :=
  ∃ s' u' r, a = .next s' ∧ b = .next u' ∧ s'.SameEngine k u' ∧ s.SameEngine k.other s' ∧ u.SameEngine k.other u' ∧
    s'.responses = s.responses ++ [r] ∧ u'.responses = u.responses ++ [r]

section rules

variable {k : TableKind} {s u v w : State} {st : Status} {d d' : Byte}

/-- An update of engine `k` alone, then the response to it. -/
theorem answerAlike_update (h : v.SameEngine k w) (hs : s.SameEngine k.other v) (hu : u.SameEngine k.other w)
    (hsr : v.responses = s.responses) (hur : w.responses = u.responses) :
    AnswerAlike k s u (respond st d v) (respond st d w) :=
  ⟨v.respond st d, w.respond st d, ⟨st, d⟩, rfl, rfl, by simpa using h, by simpa using hs, by simpa using hu,
    by rw [State.respond_responses, hsr], by rw [State.respond_responses, hur]⟩

/-- A response alone, with data that is the same in both states. -/
theorem answerAlike_respond (h : s.SameEngine k u) (hd : d' = d) :
    AnswerAlike k s u (respond st d s) (respond st d' u) := by
  subst hd
  exact answerAlike_update h (.refl _ s) (.refl _ u) rfl rfl

theorem answerAlike_whenReady {e e' : EngineState} {a b : Result} (h : s.SameEngine k u) (he : e' = e)
    (hab : AnswerAlike k s u a b) : AnswerAlike k s u (whenReady e s a) (whenReady e' u b) := by
  subst he
  cases e' with
  | ready => exact hab
  | uninit => exact answerAlike_respond h rfl
  | failed => exact answerAlike_respond h rfl

theorem answerAlike_whenUninit {e e' : EngineState} {a b : Result} (h : s.SameEngine k u) (he : e' = e)
    (hab : AnswerAlike k s u a b) : AnswerAlike k s u (whenUninit e s a) (whenUninit e' u b) := by
  subst he
  cases e' with
  | uninit => exact hab
  | ready => exact answerAlike_respond h rfl
  | failed => exact answerAlike_respond h rfl

end rules

/-! Each update of an engine takes states that agree on it to states that agree on it. -/

section updates

variable {s u : State}

theorem State.SameSub.writeS (h : s.SameSub u) (i : Nibble) (v : Byte) : (s.writeS i v).SameSub (u.writeS i v) := by
  obtain ⟨hS, hrest⟩ := h
  exact ⟨congrArg (setEntry16 · i v) hS, hrest⟩

theorem State.SamePerm.writeP (h : s.SamePerm u) (i : BitPos) (v : Byte) : (s.writeP i v).SamePerm (u.writeP i v) := by
  obtain ⟨hP, hrest⟩ := h
  exact ⟨congrArg (setEntry8 · i v) hP, hrest⟩

theorem State.SameSub.commitIS (h : s.SameSub u) (inv : Vector (Fin 16) 16) :
    (s.commitIS inv).SameSub (u.commitIS inv) := by
  obtain ⟨hS, -, -, hrecord⟩ := h
  exact ⟨hS, rfl, rfl, hrecord⟩

theorem State.SamePerm.commitIP (h : s.SamePerm u) (inv : Vector (Fin 8) 8) :
    (s.commitIP inv).SamePerm (u.commitIP inv) := by
  obtain ⟨hP, -, -, hrecord⟩ := h
  exact ⟨hP, rfl, rfl, hrecord⟩

theorem State.SameSub.recordSub (h : s.SameSub u) (info val : Byte) :
    (s.recordConfigError .substitution info val).SameSub (u.recordConfigError .substitution info val) := by
  obtain ⟨hS, hIS, -⟩ := h
  exact ⟨hS, hIS, rfl, rfl, rfl⟩

theorem State.SamePerm.recordPerm (h : s.SamePerm u) (info val : Byte) :
    (s.recordConfigError .permutation info val).SamePerm (u.recordConfigError .permutation info val) := by
  obtain ⟨hP, hIP, -⟩ := h
  exact ⟨hP, hIP, rfl, rfl, rfl⟩

end updates

/-! The commands. -/

section commands

variable {s u : State}

theorem execInis_answerAlike (h : s.SameSub u) : AnswerAlike .substitution s u (execInis s) (execInis u) := by
  have ⟨hS, _, hState, _⟩ := h
  refine answerAlike_whenUninit h hState ?_
  rw [hS]
  cases invertTable s.tabS with
  | ok inv =>
    exact answerAlike_update (h.commitIS inv) (samePerm_commitIS s inv) (samePerm_commitIS u inv) rfl rfl
  | err c i v =>
    exact answerAlike_update (h.recordSub _ v) (samePerm_recordSub s _ v) (samePerm_recordSub u _ v) rfl rfl

theorem execInip_answerAlike (h : s.SamePerm u) : AnswerAlike .permutation s u (execInip s) (execInip u) := by
  have ⟨hP, _, hState, _⟩ := h
  refine answerAlike_whenUninit h hState ?_
  rw [hP]
  cases invertTable s.tabP with
  | ok inv =>
    exact answerAlike_update (h.commitIP inv) (sameSub_commitIP s inv) (sameSub_commitIP u inv) rfl rfl
  | err c i v =>
    exact answerAlike_update (h.recordPerm _ v) (sameSub_recordPerm s _ v) (sameSub_recordPerm u _ v) rfl rfl

theorem exec_answerAlike_of_usesSub {i : Instr} (hi : i.usesSub = true) (h : s.SameSub u) :
    AnswerAlike .substitution s u (exec i s) (exec i u) := by
  have ⟨hS, hIS, hState, _, _⟩ := h
  cases i with
  | subf b => exact answerAlike_whenReady h hState (answerAlike_respond h (congrArg (subByte b) hS))
  | subi b => exact answerAlike_whenReady h hState (answerAlike_respond h (congrArg (subByte b) hIS))
  | wrs j v =>
    exact answerAlike_whenUninit h hState
      (answerAlike_update (h.writeS j v) (samePerm_writeS s j v) (samePerm_writeS u j v) rfl rfl)
  | inis => exact execInis_answerAlike h
  | rds j => exact answerAlike_respond h (h.readS j)
  | rdis j => exact answerAlike_whenReady h hState (answerAlike_respond h (congrArg widenNibble (h.readIS j)))
  | prmf | prmi | wrp | inip | rdp | rdip | rdst => exact Bool.noConfusion hi

theorem exec_answerAlike_of_usesPerm {i : Instr} (hi : i.usesPerm = true) (h : s.SamePerm u) :
    AnswerAlike .permutation s u (exec i s) (exec i u) := by
  have ⟨hP, hIP, hState, _, _⟩ := h
  cases i with
  | prmf b => exact answerAlike_whenReady h hState (answerAlike_respond h (congrArg (permByte b) hP))
  | prmi b => exact answerAlike_whenReady h hState (answerAlike_respond h (congrArg (permByte b) hIP))
  | wrp j v =>
    exact answerAlike_whenUninit h hState
      (answerAlike_update (h.writeP j v) (sameSub_writeP s j v) (sameSub_writeP u j v) rfl rfl)
  | inip => exact execInip_answerAlike h
  | rdp j => exact answerAlike_respond h (h.readP j)
  | rdip j => exact answerAlike_whenReady h hState (answerAlike_respond h (congrArg widenBitPos (h.readIP j)))
  | subf | subi | wrs | inis | rds | rdis | rdst => exact Bool.noConfusion hi

end commands

/-- Settles O49: two runs of a command of one engine, followed side by side, read and write that engine alone. -/
theorem enginesAreIndependent : Obligations.EnginesAreIndependent :=
  ⟨fun _ _ _ hi h => exec_answerAlike_of_usesSub hi h, fun _ _ _ hi h => exec_answerAlike_of_usesPerm hi h⟩

end Sys2Proof.Machine

/-! What `InvertTable` answers (R77, R78), read off the scan. -/

namespace Sys2Proof.Machine

section invert

variable {n : Nat} {t : Vector Byte n}

/-- An accepted table: every entry is in range, and the inverse undoes it. -/
theorem inverse_get_of_invertTable_ok {inv : Vector (Fin n) n} (h : invertTable t = .ok inv) (i : Fin n) :
    ∃ hr : (t.get i).toNat < n, inv.get ⟨(t.get i).toNat, hr⟩ = i := by
  rcases invertScan_cases t (List.finRange n) [] _ (scannedSlots_nil t) with
    ⟨full, he, hfull⟩ | ⟨_, _, _, _, _, _, ⟨he, _⟩ | ⟨he, _⟩⟩
  · obtain rfl : full.table = inv := Inversion.ok.inj (he.symm.trans h)
    have hi : i ∈ [] ++ List.finRange n := List.mem_finRange i
    exact ⟨hfull.inRange i hi, hfull.table_get hi⟩
  all_goals cases he.symm.trans h

/-- A rejected table: the error names the first offending entry, with its whole value. -/
theorem firstOffender_of_invertTable_err {c : Cause} {i : Fin n} {v : Byte} (h : invertTable t = .err c i v) :
    FirstOffender t c i ∧ v = t.get i := by
  rcases invertScan_cases t (List.finRange n) [] _ (scannedSlots_nil t) with
    ⟨_, he, _⟩ | ⟨pre, k, post, seen, hl, hseen, hk⟩
  · cases he.symm.trans h
  have hmem : ∀ j : Fin n, j ∈ [] ++ pre ↔ j < k := mem_finRange_prefix hl
  have hbelow : ∀ j : Fin n, j < k → (t.get j).toNat < n ∧ ∀ l : Fin n, l < j → t.get l ≠ t.get j := by
    intro j hj
    refine ⟨hseen.inRange j ((hmem j).2 hj), fun l hl e => hl.ne ?_⟩
    exact hseen.distinct ((hmem l).2 (hl.trans hj)) ((hmem j).2 hj) e
  rcases hk with ⟨he, hr⟩ | ⟨he, hr, j, hj, e⟩
  · cases he.symm.trans h
    exact ⟨⟨hbelow, hr⟩, rfl⟩
  · cases he.symm.trans h
    exact ⟨⟨hbelow, hr, j, (hmem j).1 hj, e⟩, rfl⟩

end invert

/-! One transaction, seen from one engine: what it does to it, and by which command. -/

theorem State.SameSub.tabS_eq {s t : State} (h : s.SameSub t) : t.tabS = s.tabS := h.1

theorem State.SameSub.tabIS_eq {s t : State} (h : s.SameSub t) : t.tabIS = s.tabIS := h.2.1

theorem State.SameSub.sState_eq {s t : State} (h : s.SameSub t) : t.sState = s.sState := h.2.2.1

theorem State.SamePerm.tabP_eq {s t : State} (h : s.SamePerm t) : t.tabP = s.tabP := h.1

theorem State.SamePerm.tabIP_eq {s t : State} (h : s.SamePerm t) : t.tabIP = s.tabIP := h.2.1

theorem State.SamePerm.pState_eq {s t : State} (h : s.SamePerm t) : t.pState = s.pState := h.2.2.1

/-- A command that reads under the check `READY` leaves the whole state, with one more response. -/
theorem whenReady_answers (e : EngineState) (s : State) (d : Byte) :
    ∃ st d', whenReady e s (respond .ok d s) = .next (s.respond st d') := by
  rcases whenReady_cases e s (respond .ok d s) with ⟨-, he⟩ | ⟨-, he⟩
  · exact ⟨_, _, he⟩
  · exact ⟨_, _, he⟩

/-- A command that only reads leaves the whole state, with one more response. -/
theorem exec_of_onlyReads {i : Instr} (h : i.onlyReads = true) (s : State) :
    ∃ st d, exec i s = .next (s.respond st d) := by
  cases i with
  | subf | subi | prmf | prmi | rdis | rdip => exact whenReady_answers _ s _
  | rds | rdp => exact ⟨_, _, rfl⟩
  | rdst r =>
    rcases hr : s.readStatus r with _ | v
    · exact ⟨.illegalCmd, 0, by simp [exec, execRdst, hr]⟩
    · exact ⟨.ok, v, by simp [exec, execRdst, hr]⟩
  | wrs | wrp | inis | inip => exact Bool.noConfusion h

theorem exec_sameBlock_of_onlyReads {i : Instr} {s t : State} (hi : i.onlyReads = true) (h : exec i s = .next t) :
    s.SameBlock t := by
  obtain ⟨st, d, he⟩ := exec_of_onlyReads hi s
  cases he.symm.trans h
  exact ⟨.refl s, .refl s⟩

theorem exec_sameSub_of_usesPerm {i : Instr} {s t : State} (hi : i.usesPerm = true) (h : exec i s = .next t) :
    s.SameSub t := by
  obtain ⟨t', _, _, ht, _, _, hsub, _⟩ := exec_answerAlike_of_usesPerm hi (.refl s)
  cases ht.symm.trans h
  exact hsub

theorem exec_samePerm_of_usesSub {i : Instr} {s t : State} (hi : i.usesSub = true) (h : exec i s = .next t) :
    s.SamePerm t := by
  obtain ⟨t', _, _, ht, _, _, hperm, _⟩ := exec_answerAlike_of_usesSub hi (.refl s)
  cases ht.symm.trans h
  exact hperm

/-- What the word `w` can do to the S engine, from `s` to `t`: nothing, or one of the writes of R30, from `UNINIT`. -/
inductive SubChange (w : CmdWord) (s t : State) : Prop where
  | keeps : s.SameSub t → SubChange w s t
  | writes (i : Nibble) (v : Byte) : decode w = .command (.wrs i v) → s.sState = .uninit →
      (s.writeS i v).SameSub t → SubChange w s t
  | readies (inv : Vector (Fin 16) 16) : decode w = .command .inis → s.sState = .uninit →
      invertTable s.tabS = .ok inv → (s.commitIS inv).SameSub t → SubChange w s t
  | fails (c : Cause) (i : Fin 16) (v : Byte) : decode w = .command .inis → s.sState = .uninit →
      invertTable s.tabS = .err c i v →
      (s.recordConfigError .substitution (errInfo .substitution c (nibbleOfIdx i)) v).SameSub t → SubChange w s t

/-- What the word `w` can do to the P engine, from `s` to `t`. -/
inductive PermChange (w : CmdWord) (s t : State) : Prop where
  | keeps : s.SamePerm t → PermChange w s t
  | writes (i : BitPos) (v : Byte) : decode w = .command (.wrp i v) → s.pState = .uninit →
      (s.writeP i v).SamePerm t → PermChange w s t
  | readies (inv : Vector (Fin 8) 8) : decode w = .command .inip → s.pState = .uninit →
      invertTable s.tabP = .ok inv → (s.commitIP inv).SamePerm t → PermChange w s t
  | fails (c : Cause) (i : Fin 8) (v : Byte) : decode w = .command .inip → s.pState = .uninit →
      invertTable s.tabP = .err c i v →
      (s.recordConfigError .permutation (errInfo .permutation c (nibbleOfIdx i)) v).SamePerm t → PermChange w s t

theorem subChange_of_executeWord {w : CmdWord} {s t : State} (h : executeWord w s = .next t) : SubChange w s t := by
  rcases hw : decode w with i | _
  · rw [executeWord_of_command hw] at h
    by_cases hs : s.sState = .uninit
    case neg =>
      obtain ⟨u, st, d, he, hf⟩ := exec_effect i s
      cases he.symm.trans h
      exact .keeps (hf.sameSub hs)
    cases i with
    | wrs k v =>
      cases (whenUninit_of_uninit hs s _).symm.trans h
      exact .writes k v hw hs (.refl _)
    | inis =>
      have h := (whenUninit_of_uninit hs s _).symm.trans h
      rcases hinv : invertTable s.tabS with inv | ⟨c, j, v⟩
      · rw [hinv] at h
        cases h
        exact .readies inv hw hs hinv (.refl _)
      · rw [hinv] at h
        cases h
        exact .fails c j v hw hs hinv (.refl _)
    | wrp | inip => exact .keeps (exec_sameSub_of_usesPerm rfl h)
    | subf | subi | prmf | prmi | rds | rdis | rdp | rdip | rdst => exact .keeps (exec_sameBlock_of_onlyReads rfl h).1
  · cases (executeWord_of_reserved hw s).symm.trans h
    exact .keeps (.refl s)

theorem permChange_of_executeWord {w : CmdWord} {s t : State} (h : executeWord w s = .next t) : PermChange w s t := by
  rcases hw : decode w with i | _
  · rw [executeWord_of_command hw] at h
    by_cases hs : s.pState = .uninit
    case neg =>
      obtain ⟨u, st, d, he, hf⟩ := exec_effect i s
      cases he.symm.trans h
      exact .keeps (hf.samePerm hs)
    cases i with
    | wrp k v =>
      cases (whenUninit_of_uninit hs s _).symm.trans h
      exact .writes k v hw hs (.refl _)
    | inip =>
      have h := (whenUninit_of_uninit hs s _).symm.trans h
      rcases hinv : invertTable s.tabP with inv | ⟨c, j, v⟩
      · rw [hinv] at h
        cases h
        exact .readies inv hw hs hinv (.refl _)
      · rw [hinv] at h
        cases h
        exact .fails c j v hw hs hinv (.refl _)
    | wrs | inis => exact .keeps (exec_samePerm_of_usesSub rfl h)
    | subf | subi | prmf | prmi | rds | rdis | rdp | rdip | rdst => exact .keeps (exec_sameBlock_of_onlyReads rfl h).2
  · cases (executeWord_of_reserved hw s).symm.trans h
    exact .keeps (.refl s)

/-- A step that answers `t` does nothing, is a reset, or executes the word presented. -/
theorem stepWith_next {c : Config} {s t : State} (h : stepWith c s = .next t) :
    t = s ∨ (∃ rest, s.inputs = .reset :: rest ∧ t = { s with inputs := rest }.applyReset c) ∨
      ∃ w rest, s.inputs = .command w :: rest ∧ executeWord w { s with inputs := rest } = .next t := by
  rcases stepWith_cases c s with ⟨-, he⟩ | ⟨rest, hin, he⟩ | ⟨w, rest, u, st, d, hin, he, hw, -⟩
  · cases he.symm.trans h
    exact .inl rfl
  · cases he.symm.trans h
    exact .inr (.inl ⟨rest, hin, rfl⟩)
  · cases he.symm.trans h
    exact .inr (.inr ⟨w, rest, hin, hw⟩)

/-! The invariant (R19 to R22), as one predicate for each engine. -/

/-- What the invariant says of the S engine. -/
structure State.SubInv (s : State) : Prop where
  tables : s.sState = .ready → s.SubTablesValid
  record : s.SubRecordValid

/-- What the invariant says of the P engine. -/
structure State.PermInv (s : State) : Prop where
  tables : s.pState = .ready → s.PermTablesValid
  record : s.PermRecordValid

theorem State.Inv.sub {s : State} (h : s.Inv) : s.SubInv := ⟨h.subTables, h.subRecord⟩

theorem State.Inv.perm {s : State} (h : s.Inv) : s.PermInv := ⟨h.permTables, h.permRecord⟩

theorem State.SubInv.and_perm {s : State} (hs : s.SubInv) (hp : s.PermInv) : s.Inv :=
  ⟨hs.tables, hp.tables, hs.record, hp.record⟩

section sub

variable {s t : State}

theorem State.SubInv.of_same (h : s.SubInv) (hst : s.SameSub t) : t.SubInv where
  tables := fun hr => hst.tablesValid (h.tables (hst.sState_eq ▸ hr))
  record := hst.recordValid h.record

/-- An `UNINIT` engine with a zero record. -/
theorem subInv_of_uninit (hs : s.sState = .uninit) (hr : s.sErrInfo = 0 ∧ s.sErrVal = 0) : s.SubInv where
  tables := fun h => EngineState.noConfusion (hs.symm.trans h)
  record := ⟨fun _ => hr, fun h => EngineState.noConfusion (hs.symm.trans h)⟩

theorem State.SubInv.record_zero (h : s.SubInv) (hs : s.sState = .uninit) : s.sErrInfo = 0 ∧ s.sErrVal = 0 :=
  h.record.1 (by simp [hs])

/-- The tables a successful `INIS` leaves undo each other. -/
theorem subTablesValid_commitIS {inv : Vector (Fin 16) 16} (h : invertTable s.tabS = .ok inv) :
    (s.commitIS inv).SubTablesValid := by
  intro i
  obtain ⟨hr, hi⟩ := inverse_get_of_invertTable_ok h (idx16 i)
  have hidx : idx16 (entryNibble (s.readS i)) = ⟨(s.readS i).toNat, hr⟩ := Fin.ext (Nat.mod_eq_of_lt hr)
  refine ⟨hr, ?_⟩
  calc (s.commitIS inv).readIS (entryNibble (s.readS i))
      = nibbleOfIdx (inv.get (idx16 (entryNibble (s.readS i)))) := readIS_commitIS s inv _
    _ = nibbleOfIdx (idx16 i) := by rw [hidx]; exact congrArg nibbleOfIdx hi
    _ = i := nibbleOfIdx_idx16 i

/-- The record a failing `INIS` leaves names the offending entry. -/
theorem subRecordValid_recordSub {c : Cause} {i : Fin 16} {v : Byte} (h : invertTable s.tabS = .err c i v) :
    (s.recordConfigError .substitution (errInfo .substitution c (nibbleOfIdx i)) v).SubRecordValid := by
  obtain ⟨⟨-, hbad⟩, rfl⟩ := firstOffender_of_invertTable_err h
  refine ⟨fun hs => absurd rfl hs, fun _ => ⟨nibbleOfIdx i, (readS_nibbleOfIdx s i).symm, ?_⟩⟩
  cases c with
  | range => exact .inl ⟨rfl, (readS_nibbleOfIdx s i).symm ▸ hbad⟩
  | duplicate =>
    obtain ⟨-, j, hj, e⟩ := hbad
    have hlt : nibbleOfIdx j < nibbleOfIdx i := by simpa [BitVec.lt_def] using hj
    have heq : s.readS (nibbleOfIdx j) = s.readS (nibbleOfIdx i) := by simpa using e
    exact .inr ⟨rfl, nibbleOfIdx j, hlt, heq⟩

/-- A transaction keeps the invariant of the S engine. -/
theorem SubChange.subInv {w : CmdWord} (h : SubChange w s t) (hs : s.SubInv) : t.SubInv := by
  cases h with
  | keeps hst => exact hs.of_same hst
  | writes i v _ hu hst =>
    exact (subInv_of_uninit (s := s.writeS i v) hu (hs.record_zero hu)).of_same hst
  | readies inv _ hu hinv hst =>
    refine State.SubInv.of_same (s := s.commitIS inv) ⟨fun _ => subTablesValid_commitIS hinv, ?_⟩ hst
    exact ⟨fun _ => hs.record_zero hu, fun hf => EngineState.noConfusion hf⟩
  | fails c i v _ _ herr hst =>
    exact State.SubInv.of_same ⟨fun hr => EngineState.noConfusion hr, subRecordValid_recordSub herr⟩ hst

end sub

section perm

variable {s t : State}

theorem State.PermInv.of_same (h : s.PermInv) (hst : s.SamePerm t) : t.PermInv where
  tables := fun hr => hst.tablesValid (h.tables (hst.pState_eq ▸ hr))
  record := hst.recordValid h.record

/-- An `UNINIT` engine with a zero record. -/
theorem permInv_of_uninit (hs : s.pState = .uninit) (hr : s.pErrInfo = 0 ∧ s.pErrVal = 0) : s.PermInv where
  tables := fun h => EngineState.noConfusion (hs.symm.trans h)
  record := ⟨fun _ => hr, fun h => EngineState.noConfusion (hs.symm.trans h)⟩

theorem State.PermInv.record_zero (h : s.PermInv) (hs : s.pState = .uninit) : s.pErrInfo = 0 ∧ s.pErrVal = 0 :=
  h.record.1 (by simp [hs])

/-- The tables a successful `INIP` leaves undo each other. -/
theorem permTablesValid_commitIP {inv : Vector (Fin 8) 8} (h : invertTable s.tabP = .ok inv) :
    (s.commitIP inv).PermTablesValid := by
  intro i
  obtain ⟨hr, hi⟩ := inverse_get_of_invertTable_ok h (idx8 i)
  have hidx : idx8 (entryBitPos (s.readP i)) = ⟨(s.readP i).toNat, hr⟩ := Fin.ext (Nat.mod_eq_of_lt hr)
  refine ⟨hr, ?_⟩
  calc (s.commitIP inv).readIP (entryBitPos (s.readP i))
      = bitPosOfIdx (inv.get (idx8 (entryBitPos (s.readP i)))) := readIP_commitIP s inv _
    _ = bitPosOfIdx (idx8 i) := by rw [hidx]; exact congrArg bitPosOfIdx hi
    _ = i := bitPosOfIdx_idx8 i

/-- The record a failing `INIP` leaves names the offending entry. -/
theorem permRecordValid_recordPerm {c : Cause} {i : Fin 8} {v : Byte} (h : invertTable s.tabP = .err c i v) :
    (s.recordConfigError .permutation (errInfo .permutation c (nibbleOfIdx i)) v).PermRecordValid := by
  obtain ⟨⟨-, hbad⟩, rfl⟩ := firstOffender_of_invertTable_err h
  rw [nibbleOfIdx_eq_idxOfBitPos]
  refine ⟨fun hs => absurd rfl hs, fun _ => ⟨bitPosOfIdx i, (readP_bitPosOfIdx s i).symm, ?_⟩⟩
  cases c with
  | range => exact .inl ⟨rfl, (readP_bitPosOfIdx s i).symm ▸ hbad⟩
  | duplicate =>
    obtain ⟨-, j, hj, e⟩ := hbad
    have hlt : bitPosOfIdx j < bitPosOfIdx i := by simpa [BitVec.lt_def] using hj
    have heq : s.readP (bitPosOfIdx j) = s.readP (bitPosOfIdx i) := by simpa using e
    exact .inr ⟨rfl, bitPosOfIdx j, hlt, heq⟩

/-- A transaction keeps the invariant of the P engine. -/
theorem PermChange.permInv {w : CmdWord} (h : PermChange w s t) (hs : s.PermInv) : t.PermInv := by
  cases h with
  | keeps hst => exact hs.of_same hst
  | writes i v _ hu hst =>
    exact (permInv_of_uninit (s := s.writeP i v) hu (hs.record_zero hu)).of_same hst
  | readies inv _ hu hinv hst =>
    refine State.PermInv.of_same (s := s.commitIP inv) ⟨fun _ => permTablesValid_commitIP hinv, ?_⟩ hst
    exact ⟨fun _ => hs.record_zero hu, fun hf => EngineState.noConfusion hf⟩
  | fails c i v _ _ herr hst =>
    exact State.PermInv.of_same ⟨fun hr => EngineState.noConfusion hr, permRecordValid_recordPerm herr⟩ hst

end perm

/-! The reset state (R24, R25). The invariant holds there and every step keeps it, so it holds of every reachable state. -/

/-- Both engines `UNINIT` with zero records: the state a reset leaves, whatever the forward tables. -/
theorem inv_of_uninit {s : State} (hs : s.sState = .uninit) (hp : s.pState = .uninit)
    (hsr : s.sErrInfo = 0 ∧ s.sErrVal = 0) (hpr : s.pErrInfo = 0 ∧ s.pErrVal = 0) : s.Inv :=
  (subInv_of_uninit hs hsr).and_perm (permInv_of_uninit hp hpr)

/-- Settles O12: the configuration's tables, which the default one fixes (R9). -/
theorem resetTables : Obligations.ResetTables := ⟨fun _ => ⟨rfl, rfl⟩, rfl, rfl⟩

/-- Settles O41: both engines are `UNINIT` and both records zero. -/
theorem resetMeetsTheInvariant : Obligations.ResetMeetsTheInvariant :=
  fun _ _ => inv_of_uninit rfl rfl ⟨rfl, rfl⟩ ⟨rfl, rfl⟩

theorem executeWord_inv {w : CmdWord} {s t : State} (hs : s.Inv) (h : executeWord w s = .next t) : t.Inv :=
  ((subChange_of_executeWord h).subInv hs.sub).and_perm ((permChange_of_executeWord h).permInv hs.perm)

/-- The invariant does not look at the events to come. -/
theorem State.Inv.with_inputs {s : State} (hs : s.Inv) (rest : List HostEvent) : State.Inv { s with inputs := rest } :=
  ⟨hs.subTables, hs.permTables, hs.subRecord, hs.permRecord⟩

/-- Settles O42: a step is nothing, a reset, or a transaction, which keeps the invariant of each engine. -/
theorem stepKeepsTheInvariant : Obligations.StepKeepsTheInvariant := by
  intro c s t hs h
  rcases stepWith_next h with rfl | ⟨rest, -, rfl⟩ | ⟨w, rest, -, hw⟩
  · exact hs
  · exact inv_of_uninit rfl rfl ⟨rfl, rfl⟩ ⟨rfl, rfl⟩
  · exact executeWord_inv (hs.with_inputs rest) hw

theorem Reachable.inv {c : Config} {s : State} (h : Reachable c s) : s.Inv := by
  induction h with
  | start events => exact resetMeetsTheInvariant c events
  | step _ hst ih => exact stepKeepsTheInvariant c _ _ ih hst

end Sys2Proof.Machine

/-! The inverse tables of an engine that is not `READY` cannot be observed (R25): a run from a state and a run from the
same state with other contents there, followed side by side. -/

namespace Sys2Proof.Machine

/-- The state with other contents in the inverse tables. -/
def State.withInverses (s : State) (is : Vector Nibble 16) (ip : Vector BitPos 8) : State :=
  { s with tabIS := is, tabIP := ip }

theorem State.withInverses_tabS (s : State) (is : Vector Nibble 16) (ip : Vector BitPos 8) :
    (s.withInverses is ip).tabS = s.tabS := rfl

theorem State.withInverses_tabP (s : State) (is : Vector Nibble 16) (ip : Vector BitPos 8) :
    (s.withInverses is ip).tabP = s.tabP := rfl

/-- Other contents differ from the state's own only in tables whose engine is not `READY`. -/
structure State.Hidden (s : State) (is : Vector Nibble 16) (ip : Vector BitPos 8) : Prop where
  sub : s.sState = .ready → is = s.tabIS
  perm : s.pState = .ready → ip = s.tabIP

/-- Two results are next states that differ at most in inverse tables that cannot be observed. -/
def AlikeButHidden (a b : Result) : Prop :=
  ∃ (t : State) (is : Vector Nibble 16) (ip : Vector BitPos 8),
    a = .next t ∧ b = .next (t.withInverses is ip) ∧ t.Hidden is ip

section rules

variable {s : State} {is : Vector Nibble 16} {ip : Vector BitPos 8} {st : Status} {d d' : Byte} {a b : Result}

theorem alikeButHidden_next (h : s.Hidden is ip) : AlikeButHidden (.next s) (.next (s.withInverses is ip)) :=
  ⟨s, is, ip, rfl, rfl, h⟩

theorem alikeButHidden_respond (h : s.Hidden is ip) (hd : d' = d) :
    AlikeButHidden (respond st d s) (respond st d' (s.withInverses is ip)) := by
  subst hd
  exact ⟨s.respond st d', is, ip, rfl, rfl, h.sub, h.perm⟩

theorem alikeButHidden_whenReady {e : EngineState} (h : s.Hidden is ip) (hab : e = .ready → AlikeButHidden a b) :
    AlikeButHidden (whenReady e s a) (whenReady e (s.withInverses is ip) b) := by
  cases e with
  | ready => exact hab rfl
  | uninit => exact alikeButHidden_respond h rfl
  | failed => exact alikeButHidden_respond h rfl

theorem alikeButHidden_whenUninit {e : EngineState} (h : s.Hidden is ip) (hab : e = .uninit → AlikeButHidden a b) :
    AlikeButHidden (whenUninit e s a) (whenUninit e (s.withInverses is ip) b) := by
  cases e with
  | uninit => exact hab rfl
  | ready => exact alikeButHidden_respond h rfl
  | failed => exact alikeButHidden_respond h rfl

end rules

section runs

variable {s : State} {is : Vector Nibble 16} {ip : Vector BitPos 8}

/-- `INIS` writes the whole of `IS` on the way to `READY`, so what it held before is gone. -/
theorem execInis_alikeButHidden (h : s.Hidden is ip) :
    AlikeButHidden (execInis s) (execInis (s.withInverses is ip)) := by
  refine alikeButHidden_whenUninit h fun _ => ?_
  rw [State.withInverses_tabS]
  cases invertTable s.tabS with
  | ok inv =>
    have hc : (s.commitIS inv).Hidden (s.commitIS inv).tabIS ip := ⟨fun _ => rfl, h.perm⟩
    exact alikeButHidden_respond hc rfl
  | err c i v =>
    have hf : (s.recordConfigError .substitution (errInfo .substitution c (nibbleOfIdx i)) v).Hidden is ip :=
      ⟨fun hr => EngineState.noConfusion hr, h.perm⟩
    exact alikeButHidden_respond hf rfl

/-- `INIP` writes the whole of `IP` on the way to `READY`. -/
theorem execInip_alikeButHidden (h : s.Hidden is ip) :
    AlikeButHidden (execInip s) (execInip (s.withInverses is ip)) := by
  refine alikeButHidden_whenUninit h fun _ => ?_
  rw [State.withInverses_tabP]
  cases invertTable s.tabP with
  | ok inv =>
    have hc : (s.commitIP inv).Hidden is (s.commitIP inv).tabIP := ⟨h.sub, fun _ => rfl⟩
    exact alikeButHidden_respond hc rfl
  | err c i v =>
    have hf : (s.recordConfigError .permutation (errInfo .permutation c (nibbleOfIdx i)) v).Hidden is ip :=
      ⟨h.sub, fun hr => EngineState.noConfusion hr⟩
    exact alikeButHidden_respond hf rfl

theorem execRdst_alikeButHidden (r : Nibble) (h : s.Hidden is ip) :
    AlikeButHidden (execRdst r s) (execRdst r (s.withInverses is ip)) := by
  have hread : (s.withInverses is ip).readStatus r = s.readStatus r := rfl
  rw [execRdst, execRdst, hread]
  cases s.readStatus r with
  | some v => exact alikeButHidden_respond h rfl
  | none => exact alikeButHidden_respond h rfl

/-- Every command that reads an inverse table waits for its engine to be `READY` (R25). -/
theorem exec_alikeButHidden (i : Instr) (h : s.Hidden is ip) :
    AlikeButHidden (exec i s) (exec i (s.withInverses is ip)) := by
  cases i with
  | subf b => exact alikeButHidden_whenReady h fun _ => alikeButHidden_respond h rfl
  | subi b => exact alikeButHidden_whenReady h fun hr => alikeButHidden_respond h (congrArg (subByte b) (h.sub hr))
  | prmf b => exact alikeButHidden_whenReady h fun _ => alikeButHidden_respond h rfl
  | prmi b => exact alikeButHidden_whenReady h fun hr => alikeButHidden_respond h (congrArg (permByte b) (h.perm hr))
  | wrs k v =>
    have hw : (s.writeS k v).Hidden is ip := ⟨h.sub, h.perm⟩
    exact alikeButHidden_whenUninit h fun _ => alikeButHidden_respond hw rfl
  | wrp k v =>
    have hw : (s.writeP k v).Hidden is ip := ⟨h.sub, h.perm⟩
    exact alikeButHidden_whenUninit h fun _ => alikeButHidden_respond hw rfl
  | inis => exact execInis_alikeButHidden h
  | inip => exact execInip_alikeButHidden h
  | rds k => exact alikeButHidden_respond h rfl
  | rdis k =>
    exact alikeButHidden_whenReady h fun hr =>
      alikeButHidden_respond h (congrArg (fun t => widenNibble (entry16 t k)) (h.sub hr))
  | rdp k => exact alikeButHidden_respond h rfl
  | rdip k =>
    exact alikeButHidden_whenReady h fun hr =>
      alikeButHidden_respond h (congrArg (fun t => widenBitPos (entry8 t k)) (h.perm hr))
  | rdst r => exact execRdst_alikeButHidden r h

theorem executeWord_alikeButHidden (w : CmdWord) (h : s.Hidden is ip) :
    AlikeButHidden (executeWord w s) (executeWord w (s.withInverses is ip)) := by
  cases hw : decode w with
  | command i =>
    rw [executeWord_of_command hw, executeWord_of_command hw]
    exact exec_alikeButHidden i h
  | reserved why =>
    rw [executeWord_of_reserved hw, executeWord_of_reserved hw]
    exact alikeButHidden_respond h rfl

theorem stepWith_alikeButHidden (c : Config) (h : s.Hidden is ip) :
    AlikeButHidden (stepWith c s) (stepWith c (s.withInverses is ip)) := by
  rcases hin : s.inputs with _ | ⟨w | _, rest⟩
  · rw [stepWith_idle hin, stepWith_idle (s := s.withInverses is ip) hin]
    exact alikeButHidden_next h
  · rw [stepWith_command hin, stepWith_command (s := s.withInverses is ip) hin]
    have hrest : State.Hidden { s with inputs := rest } is ip := ⟨h.sub, h.perm⟩
    exact executeWord_alikeButHidden w hrest
  · rw [stepWith_reset hin, stepWith_reset (s := s.withInverses is ip) hin]
    exact alikeButHidden_next (s := { s with inputs := rest }.applyReset c) ⟨fun _ => rfl, fun _ => rfl⟩

theorem runWith_alikeButHidden (c : Config) (k : Nat) (h : s.Hidden is ip) :
    AlikeButHidden (runWith c k s) (runWith c k (s.withInverses is ip)) := by
  induction k generalizing s is ip with
  | zero => exact alikeButHidden_next h
  | succ k ih =>
    obtain ⟨t, is', ip', hs, hu, ht⟩ := stepWith_alikeButHidden c h
    simp only [runWith, hs, hu]
    exact ih ht

end runs

/-- Settles O13, by the simulation above: the two runs stay alike but for hidden tables, which hold no response. -/
theorem inverseTablesUnobservableUnlessReady : Obligations.InverseTablesUnobservableUnlessReady := by
  refine ⟨fun _ => ⟨rfl, rfl, rfl, rfl, rfl, rfl⟩, fun c s k is ip hs hp => ?_⟩
  obtain ⟨t, is', ip', ht, hu, -⟩ := runWith_alikeButHidden c k (State.Hidden.mk hs hp)
  exact ⟨t, t.withInverses is' ip', ht, hu, rfl⟩

end Sys2Proof.Machine

/-! What follows from the changes a transaction can make to an engine: its life cycle (R18), the writers of its tables
(R30) and of its error record (R20, R21). -/

namespace Sys2Proof.Machine

/-- A transaction moves the state of the S engine only by `INIS`, from `UNINIT`. -/
theorem SubChange.sState_cases {w : CmdWord} {s t : State} (h : SubChange w s t) :
    t.sState = s.sState ∨ decode w = .command .inis ∧ s.sState = .uninit ∧
      ((t.sState = .ready ∧ ∃ inv, invertTable s.tabS = .ok inv) ∨
       (t.sState = .failed ∧ ∃ k i v, invertTable s.tabS = .err k i v)) := by
  cases h with
  | keeps hst | writes _ _ _ _ hst => exact .inl hst.sState_eq
  | readies inv hw hu hinv hst => exact .inr ⟨hw, hu, .inl ⟨hst.sState_eq, inv, hinv⟩⟩
  | fails c i v hw hu herr hst => exact .inr ⟨hw, hu, .inr ⟨hst.sState_eq, c, i, v, herr⟩⟩

/-- A transaction moves the state of the P engine only by `INIP`, from `UNINIT`. -/
theorem PermChange.pState_cases {w : CmdWord} {s t : State} (h : PermChange w s t) :
    t.pState = s.pState ∨ decode w = .command .inip ∧ s.pState = .uninit ∧
      ((t.pState = .ready ∧ ∃ inv, invertTable s.tabP = .ok inv) ∨
       (t.pState = .failed ∧ ∃ k i v, invertTable s.tabP = .err k i v)) := by
  cases h with
  | keeps hst | writes _ _ _ _ hst => exact .inl hst.pState_eq
  | readies inv hw hu hinv hst => exact .inr ⟨hw, hu, .inl ⟨hst.pState_eq, inv, hinv⟩⟩
  | fails c i v hw hu herr hst => exact .inr ⟨hw, hu, .inr ⟨hst.pState_eq, c, i, v, herr⟩⟩

/-- Settles O39: a step is nothing, a reset, or a transaction, which moves an engine's state only by its
initialisation. -/
theorem engineStateTransitions : Obligations.EngineStateTransitions := by
  refine ⟨rfl, rfl, rfl, fun c s t h => ?_⟩
  rcases stepWith_next h with rfl | ⟨rest, hin, rfl⟩ | ⟨w, rest, hin, hw⟩
  · exact .inr ⟨.inl rfl, .inl rfl⟩
  · exact .inl ⟨⟨rest, hin⟩, rfl, rfl⟩
  · refine .inr ⟨?_, ?_⟩
    · exact (subChange_of_executeWord hw).sState_cases.imp_right fun ⟨hi, hmove⟩ => ⟨⟨w, rest, hin, hi⟩, hmove⟩
    · exact (permChange_of_executeWord hw).pState_cases.imp_right fun ⟨hi, hmove⟩ => ⟨⟨w, rest, hin, hi⟩, hmove⟩

/-- Only `WRS`, from `UNINIT`, writes `S` (R30). -/
theorem SubChange.tabS_cases {w : CmdWord} {s t : State} (h : SubChange w s t) :
    t.tabS = s.tabS ∨ s.sState = .uninit ∧ ∃ i v, decode w = .command (.wrs i v) := by
  cases h with
  | keeps hst | readies _ _ _ _ hst | fails _ _ _ _ _ _ hst => exact .inl hst.tabS_eq
  | writes i v hw hu _ => exact .inr ⟨hu, i, v, hw⟩

/-- Only the `INIS` that goes from `UNINIT` to `READY` writes `IS` (R30). -/
theorem SubChange.tabIS_cases {w : CmdWord} {s t : State} (h : SubChange w s t) :
    t.tabIS = s.tabIS ∨ decode w = .command .inis ∧ s.sState = .uninit ∧ t.sState = .ready := by
  cases h with
  | keeps hst | writes _ _ _ _ hst | fails _ _ _ _ _ _ hst => exact .inl hst.tabIS_eq
  | readies _ hw hu _ hst => exact .inr ⟨hw, hu, hst.sState_eq⟩

theorem SubChange.sameSub_of_ready {w : CmdWord} {s t : State} (h : SubChange w s t) (hr : s.sState = .ready) :
    s.SameSub t := by
  cases h with
  | keeps hst => exact hst
  | writes _ _ _ hu _ | readies _ _ hu _ _ | fails _ _ _ _ hu _ _ => exact EngineState.noConfusion (hu.symm.trans hr)

/-- Only `WRP`, from `UNINIT`, writes `P` (R30). -/
theorem PermChange.tabP_cases {w : CmdWord} {s t : State} (h : PermChange w s t) :
    t.tabP = s.tabP ∨ s.pState = .uninit ∧ ∃ i v, decode w = .command (.wrp i v) := by
  cases h with
  | keeps hst | readies _ _ _ _ hst | fails _ _ _ _ _ _ hst => exact .inl hst.tabP_eq
  | writes i v hw hu _ => exact .inr ⟨hu, i, v, hw⟩

/-- Only the `INIP` that goes from `UNINIT` to `READY` writes `IP` (R30). -/
theorem PermChange.tabIP_cases {w : CmdWord} {s t : State} (h : PermChange w s t) :
    t.tabIP = s.tabIP ∨ decode w = .command .inip ∧ s.pState = .uninit ∧ t.pState = .ready := by
  cases h with
  | keeps hst | writes _ _ _ _ hst | fails _ _ _ _ _ _ hst => exact .inl hst.tabIP_eq
  | readies _ hw hu _ hst => exact .inr ⟨hw, hu, hst.pState_eq⟩

theorem PermChange.samePerm_of_ready {w : CmdWord} {s t : State} (h : PermChange w s t) (hr : s.pState = .ready) :
    s.SamePerm t := by
  cases h with
  | keeps hst => exact hst
  | writes _ _ _ hu _ | readies _ _ hu _ _ | fails _ _ _ _ hu _ _ => exact EngineState.noConfusion (hu.symm.trans hr)

/-- Settles O40: each table has one writing command, and every write starts from `UNINIT`. -/
theorem tablesImmutableOnceReady : Obligations.TablesImmutableOnceReady := by
  intro w s t h
  have sub := subChange_of_executeWord h
  have perm := permChange_of_executeWord h
  exact ⟨sub.tabS_cases, perm.tabP_cases, sub.tabIS_cases, perm.tabIP_cases, sub.sameSub_of_ready,
    perm.samePerm_of_ready⟩

/-- A transaction writes the error record of the S engine only by a failing `INIS`. -/
theorem SubChange.record_cases {w : CmdWord} {s t : State} (h : SubChange w s t) :
    (t.sErrInfo = s.sErrInfo ∧ t.sErrVal = s.sErrVal ∧
        ¬ (decode w = .command .inis ∧ s.sState = .uninit ∧ t.sState = .failed)) ∨
      (decode w = .command .inis ∧ s.sState = .uninit ∧ t.sState = .failed ∧
        ∃ k i v, invertTable s.tabS = .err k i v ∧
          t.sErrInfo = errInfo .substitution k (nibbleOfIdx i) ∧ t.sErrVal = v) := by
  cases h with
  | keeps hst | writes _ _ _ _ hst =>
    obtain ⟨-, -, hstate, hinfo, hval⟩ := hst
    exact .inl ⟨hinfo, hval, fun ⟨_, hu, hf⟩ => EngineState.noConfusion (hu.symm.trans (hstate.symm.trans hf))⟩
  | readies _ _ _ _ hst =>
    obtain ⟨-, -, hstate, hinfo, hval⟩ := hst
    exact .inl ⟨hinfo, hval, fun ⟨_, _, hf⟩ => EngineState.noConfusion (hstate.symm.trans hf)⟩
  | fails k i v hw hu herr hst =>
    obtain ⟨-, -, hstate, hinfo, hval⟩ := hst
    exact .inr ⟨hw, hu, hstate, k, i, v, herr, hinfo, hval⟩

/-- A transaction writes the error record of the P engine only by a failing `INIP`. -/
theorem PermChange.record_cases {w : CmdWord} {s t : State} (h : PermChange w s t) :
    (t.pErrInfo = s.pErrInfo ∧ t.pErrVal = s.pErrVal ∧
        ¬ (decode w = .command .inip ∧ s.pState = .uninit ∧ t.pState = .failed)) ∨
      (decode w = .command .inip ∧ s.pState = .uninit ∧ t.pState = .failed ∧
        ∃ k i v, invertTable s.tabP = .err k i v ∧
          t.pErrInfo = errInfo .permutation k (nibbleOfIdx i) ∧ t.pErrVal = v) := by
  cases h with
  | keeps hst | writes _ _ _ _ hst =>
    obtain ⟨-, -, hstate, hinfo, hval⟩ := hst
    exact .inl ⟨hinfo, hval, fun ⟨_, hu, hf⟩ => EngineState.noConfusion (hu.symm.trans (hstate.symm.trans hf))⟩
  | readies _ _ _ _ hst =>
    obtain ⟨-, -, hstate, hinfo, hval⟩ := hst
    exact .inl ⟨hinfo, hval, fun ⟨_, _, hf⟩ => EngineState.noConfusion (hstate.symm.trans hf)⟩
  | fails k i v hw hu herr hst =>
    obtain ⟨-, -, hstate, hinfo, hval⟩ := hst
    exact .inr ⟨hw, hu, hstate, k, i, v, herr, hinfo, hval⟩

/-- Settles O44: zero by the invariant, written as the changes of an engine say. -/
theorem onlyFailingInitWritesErrorRecord : Obligations.OnlyFailingInitWritesErrorRecord :=
  ⟨fun _ _ h => ⟨h.inv.subRecord.1, h.inv.permRecord.1⟩, fun _ _ _ h =>
    ⟨(subChange_of_executeWord h).record_cases, (permChange_of_executeWord h).record_cases⟩⟩

end Sys2Proof.Machine

/-! The tables of a `READY` engine (R19) and the error record of a `FAILED` one (R22), from the invariant. -/

namespace Sys2Proof.Machine

/-- A table of `n` bytes, all in range, on whose entries some function undoes the table, is a bijection. -/
theorem isBijection_of_leftInverse {n : Nat} {t : Vector Byte n} (hr : ∀ i, (t.get i).toNat < n)
    (inv : Byte → Fin n) (hinv : ∀ i, inv (t.get i) = i) : IsBijection t := by
  have hinj : Function.Injective fun i : Fin n => (⟨(t.get i).toNat, hr i⟩ : Fin n) := fun i j e => by
    have hij : t.get i = t.get j := BitVec.eq_of_toNat_eq (Fin.mk.inj e)
    rw [← hinv i, hij, hinv j]
  intro v
  obtain ⟨i, hi⟩ := Finite.injective_iff_surjective.1 hinj v
  exact ⟨i, congrArg Fin.val hi, fun j hj => hinj ((Fin.ext hj).trans hi.symm)⟩

section readyTables

variable {s : State}

/-- Among sixteen values a left inverse is a right inverse. -/
theorem State.SubTablesValid.readS_readIS (h : s.SubTablesValid) (j : Nibble) :
    s.readS (s.readIS j) = widenNibble j := by
  have hleft : Function.LeftInverse s.readIS fun i => entryNibble (s.readS i) := fun i => (h i).2
  obtain ⟨i, rfl⟩ := Finite.injective_iff_surjective.1 hleft.injective j
  rw [(h i).2]
  exact (widen_entryNibble (h i).1).symm

theorem State.SubTablesValid.isBijection (h : s.SubTablesValid) : IsBijection s.tabS :=
  isBijection_of_leftInverse (fun i => readS_nibbleOfIdx s i ▸ (h (nibbleOfIdx i)).1)
    (fun v => idx16 (s.readIS (entryNibble v))) fun i => by
      rw [← readS_nibbleOfIdx, (h (nibbleOfIdx i)).2, idx16_nibbleOfIdx]

theorem State.PermTablesValid.readP_readIP (h : s.PermTablesValid) (j : BitPos) :
    s.readP (s.readIP j) = widenBitPos j := by
  have hleft : Function.LeftInverse s.readIP fun i => entryBitPos (s.readP i) := fun i => (h i).2
  obtain ⟨i, rfl⟩ := Finite.injective_iff_surjective.1 hleft.injective j
  rw [(h i).2]
  exact (widen_entryBitPos (h i).1).symm

theorem State.PermTablesValid.isBijection (h : s.PermTablesValid) : IsBijection s.tabP :=
  isBijection_of_leftInverse (fun i => readP_bitPosOfIdx s i ▸ (h (bitPosOfIdx i)).1)
    (fun v => idx8 (s.readIP (entryBitPos v))) fun i => by
      rw [← readP_bitPosOfIdx, (h (bitPosOfIdx i)).2, idx8_bitPosOfIdx]

end readyTables

theorem widenNibble_eq_setWidth (v : Nibble) : widenNibble v = v.setWidth 8 := by revert v; decide

theorem widenBitPos_eq_setWidth (v : BitPos) : widenBitPos v = v.setWidth 8 := by revert v; decide

/-- Settles O43: the invariant gives one side; the other, and bijectivity, come from the tables being finite. -/
theorem readyTablesAreMutualInverses : Obligations.ReadyTablesAreMutualInverses := by
  intro c s h
  refine ⟨fun hr => ?_, fun hr => ?_⟩
  · have hv := h.inv.subTables hr
    exact ⟨fun i => (hv i).1, hv.isBijection, fun i => (hv i).2, fun j =>
      (hv.readS_readIS j).trans (widenNibble_eq_setWidth j)⟩
  · have hv := h.inv.permTables hr
    exact ⟨fun i => (hv i).1, hv.isBijection, fun i => (hv i).2, fun j =>
      (hv.readP_readIP j).trans (widenBitPos_eq_setWidth j)⟩

/-- The four fields of `ERRINFO` (R22). -/
theorem errInfo_fields (k : TableKind) (c : Cause) (i : Nibble) :
    (errInfo k c i).extractLsb' 7 1 = 0 ∧ (errInfo k c i).extractLsb' 6 1 = k.code ∧
    (errInfo k c i).extractLsb' 4 2 = c.code ∧ (errInfo k c i).extractLsb' 0 4 = i := by
  cases k <;> cases c <;> revert i <;> decide

theorem errInfo_index (k : TableKind) (c : Cause) (i : Nibble) : (errInfo k c i).extractLsb' 0 4 = i :=
  (errInfo_fields k c i).2.2.2

theorem errInfo_bitPos (k : TableKind) (c : Cause) (i : BitPos) :
    (errInfo k c (idxOfBitPos i)).extractLsb' 0 3 = i := by
  cases k <;> cases c <;> revert i <;> decide

theorem idxOfBitPos_toNat_lt (i : BitPos) : (idxOfBitPos i).toNat < 8 := by revert i; decide

/-- The record of a `FAILED` S engine: one of the two causes, and the index and value of one entry. -/
theorem State.SubRecordValid.of_failed {s : State} (h : s.SubRecordValid) (hf : s.sState = .failed) :
    ∃ c i, s.sErrInfo = errInfo .substitution c i ∧ s.sErrVal = s.readS i := by
  obtain ⟨i, hval, ⟨hinfo, -⟩ | ⟨hinfo, -⟩⟩ := h.2 hf
  · exact ⟨.range, i, hinfo, hval⟩
  · exact ⟨.duplicate, i, hinfo, hval⟩

theorem State.PermRecordValid.of_failed {s : State} (h : s.PermRecordValid) (hf : s.pState = .failed) :
    ∃ c i, s.pErrInfo = errInfo .permutation c (idxOfBitPos i) ∧ s.pErrVal = s.readP i := by
  obtain ⟨i, hval, ⟨hinfo, -⟩ | ⟨hinfo, -⟩⟩ := h.2 hf
  · exact ⟨.range, i, hinfo, hval⟩
  · exact ⟨.duplicate, i, hinfo, hval⟩

/-- Settles O45: the fields of `ERRINFO`, read off the record the invariant gives. -/
theorem errorRecordLayout : Obligations.ErrorRecordLayout := by
  refine ⟨errInfo_fields, rfl, rfl, rfl, rfl, fun cfg s h => ⟨fun hf => ?_, fun hf => ?_, ?_, ?_⟩⟩
  · obtain ⟨c, i, hinfo, hval⟩ := h.inv.subRecord.of_failed hf
    rw [hinfo, errInfo_index]
    exact ⟨c, rfl, hval⟩
  · obtain ⟨c, i, hinfo, hval⟩ := h.inv.permRecord.of_failed hf
    rw [hinfo, errInfo_index, errInfo_bitPos]
    exact ⟨c, rfl, idxOfBitPos_toNat_lt i, hval⟩
  · exact h.inv.subRecord.1
  · exact h.inv.permRecord.1

end Sys2Proof.Machine

/-! The block behind its pins (R47, R48, R116): when a cycle gives a response, and what its edge does. -/

namespace Sys2Proof.Machine

section pins

variable {p : Clocked} {inp : PinIn} {f : InFlight}

theorem rspValid_of_reset (h : inp.rst = true) : (p.out inp).rspValid = false := by
  rcases hf : p.inFlight with _ | f <;> simp [Clocked.out, Clocked.responseNow, h, hf]

theorem rspValid_of_idle (hf : p.inFlight = none) : (p.out inp).rspValid = false := by
  simp [Clocked.out, Clocked.responseNow, hf]

theorem rspValid_of_wait (hf : p.inFlight = some f) (hl : f.left ≠ 1) : (p.out inp).rspValid = false := by
  simp [Clocked.out, Clocked.responseNow, hf, hl]

/-- At the last edge of a command in flight, the response is the last one given by executing its word. -/
theorem responseNow_of_complete (hr : inp.rst = false) (hf : p.inFlight = some f) (hl : f.left = 1) {u : State}
    {st : Status} {d : Byte} (he : executeWord f.word p.block = .next (u.respond st d)) :
    p.responseNow inp = some ⟨st, d⟩ := by
  simp [Clocked.responseNow, hf, hl, hr, answerTo, he]

end pins

/-- Settles O17: the cases of an edge are reset, nothing in flight, an edge before the last, and the last edge. -/
theorem clockEdgesRefineTransactions : Obligations.ClockEdgesRefineTransactions := by
  intro c p inp
  rcases hr : inp.rst with _ | _
  case true => exact ⟨_, tick_reset c p hr, .inl ⟨rfl, rspValid_of_reset hr, rfl⟩⟩
  rcases hf : p.inFlight with _ | f
  · rcases hv : inp.cmdValid with _ | _
    · exact ⟨_, tick_idle c hr hf hv, .inr (.inl ⟨rfl, rspValid_of_idle hf, rfl⟩)⟩
    · exact ⟨_, tick_accept c hr hf hv, .inr (.inl ⟨rfl, rspValid_of_idle hf, rfl⟩)⟩
  by_cases hl : f.left = 1
  · obtain ⟨u, st, d, he, -⟩ := executeWord_effect f.word p.block
    have hrsp : (p.out inp).rspValid = true := by
      rw [Clocked.out, responseNow_of_complete hr hf hl he]
      rfl
    exact ⟨_, tick_complete c hr hf hl he, .inr (.inr ⟨rfl, hrsp, f, rfl, he⟩)⟩
  · exact ⟨_, tick_wait c hr hf hl, .inr (.inl ⟨rfl, rspValid_of_wait hf hl, rfl⟩)⟩

end Sys2Proof.Machine

/-! What a run of command words leaves of a `READY` engine: all of it, so that each transform answers from the tables
the engine became `READY` with (R42). -/

namespace Sys2Proof.Machine

section transforms

variable {s : State}

theorem exec_subf_of_ready (h : s.sState = .ready) (b : Byte) :
    exec (.subf b) s = .next (s.respond .ok (subByte b s.tabS)) :=
  whenReady_of_ready h s _

theorem exec_subi_of_ready (h : s.sState = .ready) (b : Byte) :
    exec (.subi b) s = .next (s.respond .ok (subByte b s.tabIS)) :=
  whenReady_of_ready h s _

theorem exec_prmf_of_ready (h : s.pState = .ready) (b : Byte) :
    exec (.prmf b) s = .next (s.respond .ok (permByte b s.tabP)) :=
  whenReady_of_ready h s _

theorem exec_prmi_of_ready (h : s.pState = .ready) (b : Byte) :
    exec (.prmi b) s = .next (s.respond .ok (permByte b s.tabIP)) :=
  whenReady_of_ready h s _

end transforms

theorem EngineState.ne_uninit_of_ready {e : EngineState} (h : e = .ready) : e ≠ .uninit :=
  fun hu => EngineState.noConfusion (h.symm.trans hu)

/-- Settles O48: a run keeps everything of a `READY` engine (`runWords_keeps`, by induction on the words), so its
transforms answer from the same tables. -/
theorem readyResponseDependsOnWordAlone : Obligations.ReadyResponseDependsOnWordAlone := by
  intro s words b
  obtain ⟨u, hu, hsub, hperm⟩ := runWords_keeps words s
  refine ⟨fun hs => ⟨u, hu, ?_⟩, fun hp => ⟨u, hu, ?_⟩⟩
  · have same : s.SameSub u := hsub (EngineState.ne_uninit_of_ready hs)
    have hready : u.sState = .ready := same.sState_eq.trans hs
    rw [← same.tabS_eq, ← same.tabIS_eq]
    exact ⟨exec_subf_of_ready hready b, exec_subi_of_ready hready b⟩
  · have same : s.SamePerm u := hperm (EngineState.ne_uninit_of_ready hp)
    have hready : u.pState = .ready := same.pState_eq.trans hp
    rw [← same.tabP_eq, ← same.tabIP_eq]
    exact ⟨exec_prmf_of_ready hready b, exec_prmi_of_ready hready b⟩

end Sys2Proof.Machine

/-! The reading commands (R38): the response of one is a function of the block's own state, which it leaves as it is. -/

namespace Sys2Proof.Machine

section reads

variable {s u : State}

theorem State.SameBlock.readStatus (h : s.SameBlock u) (r : Nibble) : u.readStatus r = s.readStatus r := by
  obtain ⟨⟨-, -, hs, hsInfo, hsVal⟩, ⟨-, -, hp, hpInfo, hpVal⟩⟩ := h
  rw [State.readStatus, State.readStatus, hs, hp, hsInfo, hsVal, hpInfo, hpVal]

/-- `RDST` reads both engines, so its runs are alike from states that agree on both. -/
theorem execRdst_answerAlike (h : s.SameBlock u) (r : Nibble) :
    AnswerAlike .substitution s u (execRdst r s) (execRdst r u) := by
  have hsub : s.SameEngine .substitution u := h.1
  rw [execRdst, execRdst, h.readStatus r]
  rcases s.readStatus r with _ | v
  · exact answerAlike_respond hsub rfl
  · exact answerAlike_respond hsub rfl

theorem exec_answerAlike_of_onlyReads {i : Instr} (hi : i.onlyReads = true) (h : s.SameBlock u) :
    ∃ k, AnswerAlike k s u (exec i s) (exec i u) := by
  have ⟨hsub, hperm⟩ := h
  cases i with
  | subf | subi | rds | rdis => exact ⟨_, exec_answerAlike_of_usesSub rfl hsub⟩
  | prmf | prmi | rdp | rdip => exact ⟨_, exec_answerAlike_of_usesPerm rfl hperm⟩
  | rdst r => exact ⟨_, execRdst_answerAlike h r⟩
  | wrs | wrp | inis | inip => exact Bool.noConfusion hi

/-- The response that two runs alike give is one response. -/
theorem AnswerAlike.response_eq {k : TableKind} {st st' : Status} {d d' : Byte}
    (h : AnswerAlike k s u (.next (s.respond st d)) (.next (u.respond st' d'))) : st' = st ∧ d' = d := by
  obtain ⟨_, _, r, hs, hu, -, -, -, hsr, hur⟩ := h
  cases hs
  cases hu
  obtain rfl : ⟨st, d⟩ = r := by simpa using hsr
  simpa using hur

/-- The response of a reading command in one state is its response in every state with the same block. -/
theorem exec_of_onlyReads_of_sameBlock {i : Instr} {st : Status} {d : Byte} (hi : i.onlyReads = true)
    (h : s.SameBlock u) (hs : exec i s = .next (s.respond st d)) : exec i u = .next (u.respond st d) := by
  obtain ⟨st', d', hu⟩ := exec_of_onlyReads hi u
  obtain ⟨k, alike⟩ := exec_answerAlike_of_onlyReads hi h
  rw [hs, hu] at alike
  obtain ⟨rfl, rfl⟩ := alike.response_eq
  exact hu

end reads

/-- Settles O36: the state with a response more has the same block, so the command repeated answers the same. -/
theorem readingCommandsChangeNothing : Obligations.ReadingCommandsChangeNothing := by
  intro i s hi
  obtain ⟨st, d, hs⟩ := exec_of_onlyReads hi s
  have same : s.SameBlock (s.respond st d) := ⟨sameSub_respond s st d, samePerm_respond s st d⟩
  exact ⟨⟨st, d⟩, hs, exec_of_onlyReads_of_sameBlock hi same hs⟩

end Sys2Proof.Machine

/-! The word of a command (R62) decodes to it, and the word presented is the one the next step runs (R40, R46). -/

namespace Sys2Proof

/-- An index of an 8-entry table, put in the word by `encode`, is what `decode` reads there. -/
theorem idxBit3_cmdWord_idxOfBitPos (op : BitVec 4) (i : BitPos) (d : Byte) :
    idxBit3 (cmdWord op (idxOfBitPos i) d) = false := by
  rw [idxBit3, Laws.idxField_cmdWord, Laws.idxOfBitPos_bit3]

theorem idxLow3_cmdWord_idxOfBitPos (op : BitVec 4) (i : BitPos) (d : Byte) :
    idxLow3 (cmdWord op (idxOfBitPos i) d) = i := by
  rw [idxLow3, Laws.idxField_cmdWord, Laws.idxOfBitPos_low3]

theorem decode_encode {i : Instr} (h : i.WellFormed = true) : decode (encode i) = .command i := by
  cases i with
  | subf | subi | prmf | prmi => simp [decode, encode, formatB]
  | wrs => simp [decode, encode, formatW16]
  | wrp => simp [decode, encode, formatW8, idxBit3_cmdWord_idxOfBitPos, idxLow3_cmdWord_idxOfBitPos]
  | inis | inip => simp [decode, encode, formatN]
  | rds | rdis => simp [decode, encode, formatR16]
  | rdp | rdip => simp [decode, encode, formatR8, idxBit3_cmdWord_idxOfBitPos, idxLow3_cmdWord_idxOfBitPos]
  | rdst r =>
    have hr : statusIndexOk r = true := h
    simp [decode, encode, formatStatus, formatR16, hr]

end Sys2Proof

namespace Sys2Proof.Machine

/-- A command word fetched as a number of 16 bits is the word presented. -/
theorem State.withFetchWord_toNat (s : State) (w : CmdWord) : s.withFetchWord 16 w.toNat = s.presentWord w := by
  rw [State.withFetchWord, Nat.mod_eq_of_lt w.isLt, BitVec.ofNat_toNat, BitVec.setWidth_eq]

theorem stepWith_of_decode {s : State} {w : CmdWord} {rest : List HostEvent} {i : Instr}
    (hin : s.inputs = .command w :: rest) (hw : decode w = .command i) (c : Config) :
    stepWith c s = exec i { s with inputs := rest } := by
  rw [stepWith_command hin, executeWord_of_command hw]

/-- Settles O8: the word of a command decodes to it, and the word taken off is the one presented. -/
theorem stepRunsDecodedCommand : Obligations.StepRunsDecodedCommand := by
  refine ⟨fun c s w rest i hin hw => stepWith_of_decode hin hw c, fun _ => rfl, fun s i hi => ?_⟩
  rw [State.withFetchWord_toNat]
  exact stepWith_of_decode (State.presentWord_inputs s _) (decode_encode hi) _

end Sys2Proof.Machine

/-! Read after write (R31, R40, R121). -/

namespace Sys2Proof.Machine

section readAfterWrite

variable (s : State)

@[simp] theorem readS_respond (st : Status) (d : Byte) (i : Nibble) : (s.respond st d).readS i = s.readS i := rfl

@[simp] theorem readP_respond (st : Status) (d : Byte) (i : BitPos) : (s.respond st d).readP i = s.readP i := rfl

@[simp] theorem readS_writeS_same (i : Nibble) (v : Byte) : (s.writeS i v).readS i = v :=
  entry16_setEntry16_same s.tabS i v

@[simp] theorem readP_writeP_same (i : BitPos) (v : Byte) : (s.writeP i v).readP i = v :=
  entry8_setEntry8_same s.tabP i v

theorem exec_rds (i : Nibble) : exec (.rds i) s = .next (s.respond .ok (s.readS i)) := rfl

theorem exec_rdp (i : BitPos) : exec (.rdp i) s = .next (s.respond .ok (s.readP i)) := rfl

variable {s}

theorem exec_wrs_of_uninit (h : s.sState = .uninit) (i : Nibble) (v : Byte) :
    exec (.wrs i v) s = .next ((s.writeS i v).respond .ok 0) :=
  whenUninit_of_uninit h s _

theorem exec_wrp_of_uninit (h : s.pState = .uninit) (i : BitPos) (v : Byte) :
    exec (.wrp i v) s = .next ((s.writeP i v).respond .ok 0) :=
  whenUninit_of_uninit h s _

end readAfterWrite

/-- Settles O38: the entry written is the entry read, and the response in between touches no table. -/
theorem writeIsSeenByNextRead : Obligations.WriteIsSeenByNextRead := by
  refine ⟨fun i v s hs => ⟨_, exec_wrs_of_uninit hs i v, ?_⟩, fun i v s hp => ⟨_, exec_wrp_of_uninit hp i v, ?_⟩⟩
  · rw [exec_rds, readS_respond, readS_writeS_same]
    rfl
  · rw [exec_rdp, readP_respond, readP_writeP_same]
    rfl

end Sys2Proof.Machine

/-! The rows of the opcode table (R50 to R54, R59). A word is its three fields, so a row's match and mask are conditions
on the fields (R53); what `decode` does with a word is said once, in one case for each format (`decode_decodedAs`), and
both directions of the round trip and the list of the reserved words are read off it. -/

namespace Sys2Proof

theorem cmdWord_eq_iff {op idx : BitVec 4} {d : Byte} {w : CmdWord} :
    cmdWord op idx d = w ↔ opField w = op ∧ idxField w = idx ∧ dataField w = d := by
  constructor
  · rintro rfl
    simp
  · rintro ⟨rfl, rfl, rfl⟩
    exact Laws.cmdWord_fields w

/-! The command a format gives a word, if it gives one (R50, R51). -/

section formats

variable {w : CmdWord} {i : Instr}

theorem formatB_eq_command {mk : Byte → Instr} :
    formatB w mk = .command i ↔ idxField w = 0 ∧ mk (dataField w) = i := by
  rw [formatB]
  split <;> simp_all

theorem formatW16_eq_command {mk : Nibble → Byte → Instr} :
    formatW16 w mk = .command i ↔ mk (idxField w) (dataField w) = i := by
  simp [formatW16]

theorem formatW8_eq_command {mk : BitPos → Byte → Instr} :
    formatW8 w mk = .command i ↔ idxBit3 w = false ∧ mk (idxLow3 w) (dataField w) = i := by
  rw [formatW8]
  split <;> simp_all

theorem formatN_eq_command {j : Instr} :
    formatN w j = .command i ↔ idxField w = 0 ∧ dataField w = 0 ∧ j = i := by
  rw [formatN]
  split
  · split <;> simp_all
  · simp_all

theorem formatR16_eq_command {mk : Nibble → Instr} :
    formatR16 w mk = .command i ↔ dataField w = 0 ∧ mk (idxField w) = i := by
  rw [formatR16]
  split <;> simp_all

theorem formatR8_eq_command {mk : BitPos → Instr} :
    formatR8 w mk = .command i ↔ idxBit3 w = false ∧ dataField w = 0 ∧ mk (idxLow3 w) = i := by
  rw [formatR8]
  split
  · simp_all
  · split <;> simp_all

theorem formatStatus_eq_command {mk : Nibble → Instr} :
    formatStatus w mk = .command i ↔ statusIndexOk (idxField w) = true ∧ dataField w = 0 ∧ mk (idxField w) = i := by
  rw [formatStatus]
  split <;> simp [formatR16_eq_command, *]

/-- Every word is a command or reserved (R54). -/
theorem Decoded.exists_reserved_iff (d : Decoded) : (∃ why, d = .reserved why) ↔ ∀ i, d ≠ .command i := by
  cases d <;> simp

/-- An index field with bit 3 clear is the field of the index in its low bits. -/
theorem idxOfBitPos_idxLow3 (h : idxBit3 w = false) : idxField w = idxOfBitPos (idxLow3 w) :=
  (Laws.idxOfBitPos_of_bit3 (idxField w) h).symm

end formats

/-- What `decode` answers for a word, one case for each format (R50, R52). A format of several rows carries the row's
constructor, with the words `encode` gives its commands. -/
inductive DecodedAs (w : CmdWord) : Decoded → Prop where
  | formatB (mk : Byte → Instr) : opField w = 0x1#4 ∨ opField w = 0x2#4 ∨ opField w = 0x3#4 ∨ opField w = 0x4#4 →
      (∀ b, (mk b).WellFormed = true ∧ encode (mk b) = cmdWord (opField w) 0 b) → DecodedAs w (formatB w mk)
  | formatW16 : opField w = 0x5#4 → DecodedAs w (formatW16 w .wrs)
  | formatW8 : opField w = 0x6#4 → DecodedAs w (formatW8 w .wrp)
  | formatN (i : Instr) : opField w = 0x7#4 ∨ opField w = 0x8#4 →
      i.WellFormed = true ∧ encode i = cmdWord (opField w) 0 0 → DecodedAs w (formatN w i)
  | formatR16 (mk : Nibble → Instr) : opField w = 0x9#4 ∨ opField w = 0xA#4 →
      (∀ k, (mk k).WellFormed = true ∧ encode (mk k) = cmdWord (opField w) k 0) → DecodedAs w (formatR16 w mk)
  | formatR8 (mk : BitPos → Instr) : opField w = 0xB#4 ∨ opField w = 0xC#4 →
      (∀ k, (mk k).WellFormed = true ∧ encode (mk k) = cmdWord (opField w) (idxOfBitPos k) 0) →
      DecodedAs w (formatR8 w mk)
  | formatStatus : opField w = 0xD#4 → DecodedAs w (formatStatus w .rdst)
  | noFormat : opField w = 0x0#4 ∨ opField w = 0xE#4 ∨ opField w = 0xF#4 → DecodedAs w (.reserved .opcode)

theorem decode_decodedAs (w : CmdWord) : DecodedAs w (decode w) := by
  have hop : ∀ {n : Nat}, (opField w).toNat = n → opField w = BitVec.ofNat 4 n := by
    rintro n rfl
    simp
  rw [decode]
  split
  next h => exact .formatB _ (by simp [hop h]) fun b => ⟨rfl, by rw [hop h]; rfl⟩
  next h => exact .formatB _ (by simp [hop h]) fun b => ⟨rfl, by rw [hop h]; rfl⟩
  next h => exact .formatB _ (by simp [hop h]) fun b => ⟨rfl, by rw [hop h]; rfl⟩
  next h => exact .formatB _ (by simp [hop h]) fun b => ⟨rfl, by rw [hop h]; rfl⟩
  next h => exact .formatW16 (hop h)
  next h => exact .formatW8 (hop h)
  next h => exact .formatN _ (by simp [hop h]) ⟨rfl, by rw [hop h]; rfl⟩
  next h => exact .formatN _ (by simp [hop h]) ⟨rfl, by rw [hop h]; rfl⟩
  next h => exact .formatR16 _ (by simp [hop h]) fun k => ⟨rfl, by rw [hop h]; rfl⟩
  next h => exact .formatR16 _ (by simp [hop h]) fun k => ⟨rfl, by rw [hop h]; rfl⟩
  next h => exact .formatR8 _ (by simp [hop h]) fun k => ⟨rfl, by rw [hop h]; rfl⟩
  next h => exact .formatR8 _ (by simp [hop h]) fun k => ⟨rfl, by rw [hop h]; rfl⟩
  next h => exact .formatStatus (hop h)
  next =>
    refine .noFormat ?_
    clear hop
    generalize opField w = op at *
    revert op
    decide

/-! The two directions of the round trip (R53, R54). -/

/-- Settles O1: the fields of the word `encode` gives are those of the command's row, so `decode` finds the row. -/
theorem decodeUndoesEncode : Obligations.DecodeUndoesEncode := fun _ h => decode_encode h

/-- Settles O2: in each format, the fields that the operands do not fill are the ones `decode` has tested. -/
theorem encodeUndoesDecode : Obligations.EncodeUndoesDecode := by
  intro w i h
  have hw := decode_decodedAs w
  generalize decode w = d at h hw
  cases hw with
  | formatB mk _ hmk =>
    obtain ⟨hidx, rfl⟩ := formatB_eq_command.1 h
    exact ⟨(hmk _).1, (hmk _).2.trans (cmdWord_eq_iff.2 ⟨rfl, hidx, rfl⟩)⟩
  | formatW16 hop =>
    obtain rfl := formatW16_eq_command.1 h
    exact ⟨rfl, cmdWord_eq_iff.2 ⟨hop, rfl, rfl⟩⟩
  | formatW8 hop =>
    obtain ⟨hbit, rfl⟩ := formatW8_eq_command.1 h
    exact ⟨rfl, cmdWord_eq_iff.2 ⟨hop, idxOfBitPos_idxLow3 hbit, rfl⟩⟩
  | formatN j _ hj =>
    obtain ⟨hidx, hdata, rfl⟩ := formatN_eq_command.1 h
    exact ⟨hj.1, hj.2.trans (cmdWord_eq_iff.2 ⟨rfl, hidx, hdata⟩)⟩
  | formatR16 mk _ hmk =>
    obtain ⟨hdata, rfl⟩ := formatR16_eq_command.1 h
    exact ⟨(hmk _).1, (hmk _).2.trans (cmdWord_eq_iff.2 ⟨rfl, rfl, hdata⟩)⟩
  | formatR8 mk _ hmk =>
    obtain ⟨hbit, hdata, rfl⟩ := formatR8_eq_command.1 h
    exact ⟨(hmk _).1, (hmk _).2.trans (cmdWord_eq_iff.2 ⟨rfl, idxOfBitPos_idxLow3 hbit, hdata⟩)⟩
  | formatStatus hop =>
    obtain ⟨hok, hdata, rfl⟩ := formatStatus_eq_command.1 h
    exact ⟨hok, cmdWord_eq_iff.2 ⟨hop, rfl, hdata⟩⟩
  | noFormat => exact Decoded.noConfusion h

theorem decode_eq_command_iff {w : CmdWord} {i : Instr} :
    decode w = .command i ↔ i.WellFormed = true ∧ encode i = w := by
  constructor
  · exact encodeUndoesDecode w i
  · rintro ⟨hi, rfl⟩
    exact decode_encode hi

theorem decode_eq_command_iff_of_wellFormed {w : CmdWord} {i : Instr} (hi : i.WellFormed = true) :
    decode w = .command i ↔ encode i = w := by
  rw [decode_eq_command_iff, and_iff_right hi]

/-! The reserved words (R59). -/

theorem decode_reserved_iff (w : CmdWord) : (∃ why, decode w = .reserved why) ↔ ReservedWord w := by
  rw [Decoded.exists_reserved_iff, ReservedWord]
  have hw := decode_decodedAs w
  generalize decode w = d at hw ⊢
  cases hw with
  | formatB mk hop =>
    rcases hop with hop | hop | hop | hop <;> simp [hop, formatB_eq_command]
  | formatW16 hop => simp [hop, formatW16_eq_command]
  | formatW8 hop => simp [hop, formatW8_eq_command, idxBit3]
  | formatN i hop =>
    rcases hop with hop | hop <;> simp [hop, formatN_eq_command, imp_iff_not_or, forall_or_left]
  | formatR16 mk hop =>
    rcases hop with hop | hop <;> simp [hop, formatR16_eq_command]
  | formatR8 mk hop =>
    rcases hop with hop | hop <;> simp [hop, formatR8_eq_command, idxBit3, imp_iff_not_or, forall_or_left]
  | formatStatus hop =>
    simp [hop, formatStatus_eq_command, statusIndexOk, imp_iff_not_or, forall_or_left, or_comm, Nat.lt_iff_add_one_le]
  | noFormat hop => simp [hop]

/-- Settles O6: no format answers the words R59 lists, and a word that decodes to no command is answered at once. -/
theorem reservedWordsAreIllegal : Obligations.ReservedWordsAreIllegal := by
  refine ⟨decode_reserved_iff, fun c s w rest hin hw => ?_⟩
  obtain ⟨why, hd⟩ := (decode_reserved_iff w).2 hw
  exact (Machine.stepWith_command hin c).trans (Machine.executeWord_of_reserved hd _)

end Sys2Proof

/-! The match and the mask of each format (R50, R53), as conditions on the fields of the word. -/

namespace Sys2Proof

theorem opField_and (w m : CmdWord) : opField (w &&& m) = opField w &&& opField m := BitVec.extractLsb'_and

theorem idxField_and (w m : CmdWord) : idxField (w &&& m) = idxField w &&& idxField m := BitVec.extractLsb'_and

theorem dataField_and (w m : CmdWord) : dataField (w &&& m) = dataField w &&& dataField m := BitVec.extractLsb'_and

/-- A mask that spans `OP` and the bits `mi` of `IDX` and `md` of `DATA` matches where `OP` is the row's and those bits
are 0. -/
theorem and_mask_eq_iff {w : CmdWord} {op mi : BitVec 4} {md : Byte} :
    w &&& cmdWord 0xF mi md = cmdWord op 0 0 ↔ opField w = op ∧ idxField w &&& mi = 0 ∧ dataField w &&& md = 0 := by
  have hop : opField w &&& 0xF = opField w := BitVec.and_allOnes
  rw [eq_comm, cmdWord_eq_iff, opField_and, idxField_and, dataField_and, Laws.opField_cmdWord, Laws.idxField_cmdWord,
    Laws.dataField_cmdWord, hop]

theorem idxLow3_eq_extractLsb' (w : CmdWord) : idxLow3 w = w.extractLsb' 8 3 := by
  apply BitVec.eq_of_getLsbD_eq
  intro k hk
  have hk4 : k < 4 := by omega
  simp [idxLow3, idxField, hk, hk4]

theorem eq_idxOfBitPos_iff {n : Nibble} {k : BitPos} :
    n = idxOfBitPos k ↔ n &&& 0x8 = 0 ∧ k = n.extractLsb' 0 3 := by
  revert n k
  decide

theorem nibble_and_ones (n : Nibble) : n &&& 0xF = n := BitVec.and_allOnes

theorem byte_and_ones (d : Byte) : d &&& 0xFF = d := BitVec.and_allOnes

/-! Each mask below is the word of its own fields, which each proof writes out first. -/

section masks

variable {op : BitVec 4} {w : CmdWord}

theorem formatB_iff_mask {b : Byte} :
    cmdWord op 0 b = w ↔ w &&& 0xFF00#16 = cmdWord op 0 0 ∧ b = w.extractLsb' 0 8 := by
  change _ ↔ w &&& cmdWord 0xF 0xF 0 = _ ∧ b = dataField w
  rw [cmdWord_eq_iff, and_mask_eq_iff, nibble_and_ones]
  simp [and_assoc, eq_comm]

theorem formatW16_iff_mask {k : Nibble} {v : Byte} :
    cmdWord op k v = w ↔ w &&& 0xF000#16 = cmdWord op 0 0 ∧ k = w.extractLsb' 8 4 ∧ v = w.extractLsb' 0 8 := by
  change _ ↔ w &&& cmdWord 0xF 0 0 = _ ∧ k = idxField w ∧ v = dataField w
  rw [cmdWord_eq_iff, and_mask_eq_iff]
  simp [eq_comm]

theorem formatW8_iff_mask {k : BitPos} {v : Byte} :
    cmdWord op (idxOfBitPos k) v = w ↔
      w &&& 0xF800#16 = cmdWord op 0 0 ∧ k = w.extractLsb' 8 3 ∧ v = w.extractLsb' 0 8 := by
  change _ ↔ w &&& cmdWord 0xF 8 0 = _ ∧ _ ∧ v = dataField w
  rw [cmdWord_eq_iff, and_mask_eq_iff, eq_idxOfBitPos_iff, ← idxLow3_eq_extractLsb', ← idxLow3]
  simp [and_assoc, eq_comm]

theorem formatN_iff_mask : cmdWord op 0 0 = w ↔ w &&& 0xFFFF#16 = cmdWord op 0 0 := by
  change _ ↔ w &&& cmdWord 0xF 0xF 0xFF = _
  rw [cmdWord_eq_iff, and_mask_eq_iff, nibble_and_ones, byte_and_ones]

theorem formatR16_iff_mask {k : Nibble} :
    cmdWord op k 0 = w ↔ w &&& 0xF0FF#16 = cmdWord op 0 0 ∧ k = w.extractLsb' 8 4 := by
  change _ ↔ w &&& cmdWord 0xF 0 0xFF = _ ∧ k = idxField w
  rw [cmdWord_eq_iff, and_mask_eq_iff, byte_and_ones]
  simp [and_assoc, and_left_comm, and_comm, eq_comm]

theorem formatR8_iff_mask {k : BitPos} :
    cmdWord op (idxOfBitPos k) 0 = w ↔ w &&& 0xF8FF#16 = cmdWord op 0 0 ∧ k = w.extractLsb' 8 3 := by
  change _ ↔ w &&& cmdWord 0xF 8 0xFF = _ ∧ _
  rw [cmdWord_eq_iff, and_mask_eq_iff, eq_idxOfBitPos_iff, byte_and_ones, ← idxLow3_eq_extractLsb', ← idxLow3]
  simp [and_assoc, and_left_comm, and_comm, eq_comm]

end masks

/-- Settles O3: a word is the command of a row when it is the word `encode` gives it, and then the fields that the
operands do not fill are those the mask spans. -/
theorem decodeFollowsMatchAndMask : Obligations.DecodeFollowsMatchAndMask := by
  intro w
  have row {i : Instr} (hi : i.WellFormed = true) {P : Prop} (hP : encode i = w ↔ P) : decode w = .command i ↔ P :=
    (decode_eq_command_iff_of_wellFormed hi).trans hP
  refine ⟨fun _ => row rfl formatB_iff_mask, fun _ => row rfl formatB_iff_mask, fun _ => row rfl formatB_iff_mask,
    fun _ => row rfl formatB_iff_mask, fun _ _ => row rfl formatW16_iff_mask, fun _ _ => row rfl formatW8_iff_mask,
    row rfl formatN_iff_mask, row rfl formatN_iff_mask, fun _ => row rfl formatR16_iff_mask,
    fun _ => row rfl formatR16_iff_mask, fun _ => row rfl formatR8_iff_mask, fun _ => row rfl formatR8_iff_mask,
    fun r => ?_⟩
  have hmask : encode (.rdst r) = w ↔ w &&& 0xF0FF#16 = 0xD000#16 ∧ r = w.extractLsb' 8 4 := formatR16_iff_mask
  rw [decode_eq_command_iff, hmask, and_comm, and_assoc, Instr.WellFormed, statusIndexOk, decide_eq_true_iff]

/-! The word of a command as its row's shifted fields (R62), and the words of the manual (R60). -/

theorem shiftedWord_eq_cmdWord (op idx : BitVec 4) (v : Byte) : shiftedWord op idx v = cmdWord op idx v := by
  apply BitVec.eq_of_getLsbD_eq
  intro k hk
  rw [Laws.cmdWord_getLsbD]
  rcases lt_or_ge k 8 with h8 | h8
  · have h12 : k < 12 := by omega
    simp [shiftedWord, hk, h8, h12]
  · have hv : v.getLsbD k = false := BitVec.getLsbD_of_ge v k h8
    rcases lt_or_ge k 12 with h12 | h12
    · have h4 : k - 8 < 4 := by omega
      simp [shiftedWord, hv, hk, h12, h4, Nat.not_lt.2 h8]
    · have hidx : idx.getLsbD (k - 8) = false := BitVec.getLsbD_of_ge idx (k - 8) (by omega)
      have h4 : ¬ k - 8 < 4 := by omega
      simp [shiftedWord, hv, hidx, hk, h4, Nat.not_lt.2 h8, Nat.not_lt.2 h12, Nat.sub_sub]

theorem setWidth_eq_idxOfBitPos (i : BitPos) : i.setWidth 4 = idxOfBitPos i := by
  revert i
  decide

/-- Settles O4: shifted fields are fields put side by side, as `encode` puts them. -/
theorem encodingIsShiftedFields : Obligations.EncodingIsShiftedFields := by
  simp only [Obligations.EncodingIsShiftedFields, shiftedWord_eq_cmdWord, setWidth_eq_idxOfBitPos]
  exact ⟨fun _ => rfl, fun _ => rfl, fun _ => rfl, fun _ => rfl, fun _ _ => rfl, fun _ _ => rfl, rfl, rfl,
    fun _ => rfl, fun _ => rfl, fun _ => rfl, fun _ => rfl, fun _ => rfl, rfl⟩

/-- Settles O5, by evaluating `decode` on the fourteen words. -/
theorem manualWordsDecode : Obligations.ManualWordsDecode := by
  unfold Obligations.ManualWordsDecode
  decide

end Sys2Proof

/-! Responses and their words (R55, R56). -/

namespace Sys2Proof.Machine

/-- Settles O9: everything a word can do (`executeWord_effect`) is one response after an effect that keeps the host's
two lists, and a step on a reset or on no event gives none. -/
theorem oneResponsePerCommand : Obligations.OneResponsePerCommand := by
  refine fun c s => ⟨fun w rest hin => ?_, fun rest hin => ⟨_, stepWith_reset hin c, rfl, rfl⟩,
    fun hin => stepWith_idle hin c⟩
  obtain ⟨u, st, d, he, heff⟩ := executeWord_effect w { s with inputs := rest }
  refine ⟨_, ⟨st, d⟩, (stepWith_command hin c).trans he, ?_, ?_⟩
  · rw [State.respond, heff.responses_eq]
  · exact heff.inputs_eq

theorem Status.code_le (st : Status) : st.code.toNat ≤ 4 := by cases st <;> decide

/-- Settles O7: a response word is the status code put before the data byte. -/
theorem responseWordLayout : Obligations.ResponseWordLayout :=
  ⟨fun r => ⟨BitVec.extractLsb'_append_eq_left, BitVec.extractLsb'_append_eq_right, r.st.code_le⟩,
    rfl, rfl, rfl, rfl, rfl⟩

end Sys2Proof.Machine

/-! An accepted command at the pins (R47, R48, R125): the edges between its acceptance and its response. -/

namespace Sys2Proof.Machine

section pending

variable {p : Clocked} {f : InFlight}

theorem cmdReady_of_inFlight {x : PinIn} (hr : x.rst = false) (hf : p.inFlight = some f) :
    (p.out x).cmdReady = false := by
  simp [Clocked.out, hr, hf]

theorem run_cons_of_tick {c : Config} {x : PinIn} {later : List PinIn} {q : Clocked} (h : p.tick c x = .next q) :
    p.run c (x :: later) = q.run c later := by
  simp [Clocked.run, h]

/-- Fewer edges than a command has left only count down: the block is unchanged and the command still in flight. -/
theorem run_wait (c : Config) {later : List PinIn} (hr : ∀ x ∈ later, x.rst = false) (hf : p.inFlight = some f)
    (hl : later.length < f.left) :
    ∃ q, p.run c later = .next q ∧ q.block = p.block ∧
      q.inFlight = some { f with left := f.left - later.length } := by
  induction later generalizing p f with
  | nil => exact ⟨p, rfl, rfl, hf⟩
  | cons x later ih =>
    rw [List.length_cons] at hl
    have hne : f.left ≠ 1 := by omega
    rw [run_cons_of_tick (tick_wait c (hr x List.mem_cons_self) hf hne)]
    obtain ⟨q, hq, hblock, hin⟩ := ih (f := { f with left := f.left - 1 }) (p := p.advance p.block (some _))
      (fun y hy => hr y (List.mem_cons_of_mem x hy)) rfl (Nat.lt_sub_of_add_lt hl)
    refine ⟨q, hq, hblock, hin.trans ?_⟩
    rw [List.length_cons, Nat.sub_sub, Nat.add_comm 1]

/-- `rsp_valid` is 1 in the cycle whose closing edge is the last of the command in flight, and in no other. -/
theorem rspValid_iff_last {x : PinIn} (hr : x.rst = false) (hf : p.inFlight = some f) :
    (p.out x).rspValid = true ↔ f.left = 1 := by
  by_cases hl : f.left = 1
  · obtain ⟨u, st, d, he, -⟩ := executeWord_effect f.word p.block
    simp [Clocked.out, responseNow_of_complete hr hf hl he, hl]
  · simp [rspValid_of_wait hf hl, hl]

end pending

/-- Settles O16: after the accepting edge the run only counts down (`run_wait`), so the edges left are `LAT` less the
edges passed, and the edge at which one is left gives the response. -/
theorem acceptedCommandAnsweredAfterLatency : Obligations.AcceptedCommandAnsweredAfterLatency := by
  intro c p w first later hidle hrst hvalid hcmd hlater hlen
  subst hcmd
  refine ⟨by simp [Clocked.out, hrst, hidle], one_le_latency _ _ _, latency_le _ _ _, ?_⟩
  obtain ⟨q, hq, hblock, hf⟩ := run_wait c (p := p.accept first.cmd) hlater rfl hlen
  refine ⟨q, (run_cons_of_tick (tick_accept c hrst hidle hvalid)).trans hq, hblock, fun x hx => ?_⟩
  have hlast : later.length + 1 = latency p.accepted first.cmd p.block ↔
      latency p.accepted first.cmd p.block - later.length = 1 := by omega
  refine ⟨cmdReady_of_inFlight hx hf, (rspValid_iff_last hx hf).trans hlast.symm, fun hn => ?_⟩
  have hleft := hlast.1 hn
  obtain ⟨u, st, d, he, heff⟩ := executeWord_effect first.cmd p.block
  have heq : executeWord first.cmd q.block = .next (u.respond st d) := hblock ▸ he
  refine ⟨_, ⟨st, d⟩, he, ?_, ?_, _, tick_complete c hx hf hleft heq, rfl, rfl⟩
  · rw [State.respond, heff.responses_eq]
  · rw [Clocked.out, responseNow_of_complete hx hf hleft heq]

end Sys2Proof.Machine

/-! The words of format B (R50, R53, R62) as numbers, and the words of it that are reserved (R59). -/

namespace Sys2Proof

/-- A word whose index field is 0 is its opcode, shifted, over its data byte. -/
theorem cmdWord_zero_index (op : BitVec 4) (b : Byte) :
    cmdWord op 0 b = (op.setWidth 16 <<< 12) ||| b.setWidth 16 := by
  rw [← shiftedWord_eq_cmdWord]
  simp [shiftedWord]

theorem reservedWord_of_formatB_index {op idx : BitVec 4} (hop : op ∈ [0x1#4, 0x2#4, 0x3#4, 0x4#4])
    (hidx : idx ≠ 0) (b : Byte) : ReservedWord (cmdWord op idx b) := by
  have hclause : op ∈ [0x1#4, 0x2#4, 0x3#4, 0x4#4, 0x7#4, 0x8#4] :=
    List.mem_append_left [0x7#4, 0x8#4] hop
  refine .inr (.inl ?_)
  rw [Laws.opField_cmdWord, Laws.idxField_cmdWord]
  exact ⟨hclause, hidx⟩

end Sys2Proof

namespace Sys2Proof.Machine

theorem executeWord_of_reservedWord {w : CmdWord} (h : ReservedWord w) (s : State) :
    executeWord w s = .next (s.respond .illegalCmd 0) := by
  obtain ⟨why, hw⟩ := (decode_reserved_iff w).2 h
  exact executeWord_of_reserved hw s

/-- A format B word with a nonzero index is answered `ILLEGAL_CMD` in every state. -/
theorem executeWord_formatB_index {op idx : BitVec 4} (hop : op ∈ [0x1#4, 0x2#4, 0x3#4, 0x4#4]) (hidx : idx ≠ 0)
    (b : Byte) (s : State) : executeWord (cmdWord op idx b) s = .next (s.respond .illegalCmd 0) :=
  executeWord_of_reservedWord (reservedWord_of_formatB_index hop hidx b) s

end Sys2Proof.Machine

/-! `SubByte` (R63): the nibbles of a byte as shifts and masks. -/

namespace Sys2Proof.Machine

theorem hiNibble_eq_shift (b : Byte) : (b >>> 4).setWidth 4 = hiNibble b := by
  revert b
  decide

theorem loNibble_eq_mask (b : Byte) : (b &&& 0xF).setWidth 4 = loNibble b := by
  revert b
  decide

theorem joinNibbles_eq_or (hi lo : Nibble) : joinNibbles hi lo = (widenNibble hi <<< 4) ||| widenNibble lo := by
  revert hi lo
  decide

/-- Settles O18: each nibble of the result is one entry's low nibble, which is the whole of an entry below 16. -/
theorem subByteLooksUpEachNibble : Obligations.SubByteLooksUpEachNibble := by
  refine ⟨fun ew t b => ⟨hiNibble_subByte b t, loNibble_subByte b t⟩, fun t b ht => ?_⟩
  rw [hiNibble_eq_shift, loNibble_eq_mask, subByte, joinNibbles_eq_or, widen_entryNibble (ht _),
    widen_entryNibble (ht _)]

end Sys2Proof.Machine

/-! Round trips of commands (R67, R68): from a table that undoes another, by nibbles, to the two commands. -/

namespace Sys2Proof.Machine

/-- When one table undoes another on every nibble, its substitution undoes the other's on every byte. -/
theorem subByte_leftInverse {ew ew' : Nat} {t : Vector (BitVec ew) 16} {t' : Vector (BitVec ew') 16}
    (h : ∀ n : Nibble, entryNibble (entry16 t' (entryNibble (entry16 t n))) = n) :
    Function.LeftInverse (fun b => subByte b t') fun b => subByte b t := fun b => by
  refine byte_ext ?_ ?_
  · rw [hiNibble_subByte, hiNibble_subByte, h]
  · rw [loNibble_subByte, loNibble_subByte, h]

section readyTables

variable {s : State}

/-- R67: `IS` undoes `S`. -/
theorem State.SubTablesValid.leftInverse_subByte (h : s.SubTablesValid) :
    Function.LeftInverse (fun b => subByte b s.tabIS) fun b => subByte b s.tabS :=
  subByte_leftInverse fun n => (entryNibble_nibble _).trans (h n).2

/-- R67: `S` undoes `IS`. -/
theorem State.SubTablesValid.rightInverse_subByte (h : s.SubTablesValid) :
    Function.RightInverse (fun b => subByte b s.tabIS) fun b => subByte b s.tabS :=
  subByte_leftInverse fun n =>
    calc entryNibble (s.readS (entryNibble (s.readIS n)))
      _ = entryNibble (s.readS (s.readIS n)) := by rw [entryNibble_nibble]
      _ = entryNibble (widenNibble n) := by rw [h.readS_readIS]
      _ = n := entryNibble_widen n

end readyTables

section answers

variable {s : State}

/-- The data of the one response a command gives. -/
theorem data_eq_of_next_respond {st st' : Status} {d d' : Byte}
    (h : (.next (s.respond st d) : Result) = .next (s.respond st' d')) : d = d' := by
  have hrsp := congrArg State.responses (Host.Outcome.next.inj h)
  rw [State.respond_responses, State.respond_responses] at hrsp
  exact congrArg Response.rdata (List.singleton_inj.1 (List.append_cancel_left hrsp))

/-- When a command answers with a function that another's undoes, its answer sent to the other gives the byte back. -/
theorem exec_undoes_answer {i j : Byte → Instr} {f g : Byte → Byte}
    (hi : ∀ b, exec (i b) s = .next (s.respond .ok (f b))) (hj : ∀ b, exec (j b) s = .next (s.respond .ok (g b)))
    (hgf : Function.LeftInverse g f) {b c : Byte} (h : exec (i b) s = .next (s.respond .ok c)) :
    exec (j c) s = .next (s.respond .ok b) := by
  obtain rfl : f b = c := data_eq_of_next_respond ((hi b).symm.trans h)
  rw [hj, hgf b]

end answers

/-- Settles O50: the two tables of a `READY` engine undo each other, so the two commands and the two maps do. -/
theorem substitutionRoundTrip : Obligations.SubstitutionRoundTrip := by
  intro s hinv hready
  have hleft := (hinv.subTables hready).leftInverse_subByte
  have hright := (hinv.subTables hready).rightInverse_subByte
  have hsubf := exec_subf_of_ready hready
  have hsubi := exec_subi_of_ready hready
  exact ⟨fun _ _ => exec_undoes_answer hsubf hsubi hleft, fun _ _ => exec_undoes_answer hsubi hsubf hright,
    ⟨hleft.injective, hright.surjective⟩, fun b => ⟨hleft b, hright b⟩⟩

end Sys2Proof.Machine

/-! `SUBF` and `SUBI` (R65, R66). -/

namespace Sys2Proof.Machine

section commands

variable {s : State}

theorem exec_subf_of_not_ready (h : s.sState ≠ .ready) (b : Byte) :
    exec (.subf b) s = .next (s.respond .notReady 0) :=
  whenReady_of_not_ready h s _

theorem exec_subi_of_not_ready (h : s.sState ≠ .ready) (b : Byte) :
    exec (.subi b) s = .next (s.respond .notReady 0) :=
  whenReady_of_not_ready h s _

theorem exec_inis_of_ok {inv : Vector (Fin 16) 16} (hu : s.sState = .uninit) (h : invertTable s.tabS = .ok inv) :
    exec .inis s = .next ((s.commitIS inv).respond .ok 0) := by
  rw [exec, execInis, whenUninit_of_uninit hu, h]
  rfl

end commands

theorem subByte_joinNibbles {ew : Nat} (hi lo : Nibble) (t : Vector (BitVec ew) 16) :
    subByte (joinNibbles hi lo) t = joinNibbles (entryNibble (entry16 t hi)) (entryNibble (entry16 t lo)) := by
  rw [subByte, hiNibble_joinNibbles, loNibble_joinNibbles]

/-- R65's example: entries 0xB and 0x3 of the default table are 0xC and 0x1. -/
theorem subByte_B3_sReset : subByte 0xB3 Config.thisHardware.sReset = 0xC1 := by decide

/-- Settles O23: a word of format B, a command under the check `READY`, and each nibble looked up on its own; the
range of the entries is the invariant's. -/
theorem subfSubstitutesForward : Obligations.SubfSubstitutesForward :=
  ⟨cmdWord_zero_index 0x1, fun b _ h => exec_subf_of_ready h b, fun b _ h => exec_subf_of_not_ready h b,
    fun _ b s h => executeWord_formatB_index (by decide) h b s, fun n s => subByte_joinNibbles n n s.tabS,
    fun _ hinv h n => (hinv.subTables h n).1, subByte_B3_sReset⟩

/-- R66's example: after `INIS`, `IS` undoes the default `S`, and so takes R65's example back. -/
theorem subByte_C1_of_inis_reset {t : State} (h : exec .inis State.reset = .next t) : subByte 0xC1 t.tabIS = 0xB3 := by
  obtain ⟨inv, hinv⟩ : ∃ inv, invertTable State.reset.tabS = .ok inv := ⟨_, rfl⟩
  obtain rfl := Host.Outcome.next.inj ((exec_inis_of_ok rfl hinv).symm.trans h)
  have hundo : subByte (subByte 0xB3 Config.thisHardware.sReset) (State.reset.commitIS inv).tabIS = 0xB3 :=
    (subTablesValid_commitIS hinv).leftInverse_subByte 0xB3
  rwa [subByte_B3_sReset] at hundo

/-- Settles O24: as for `SUBF`, where an entry of `IS` is a nibble and so is looked up whole. -/
theorem subiSubstitutesInverse : Obligations.SubiSubstitutesInverse := by
  refine ⟨cmdWord_zero_index 0x2, fun b _ h => exec_subi_of_ready h b, fun b _ h => exec_subi_of_not_ready h b,
    fun _ b s h => executeWord_formatB_index (by decide) h b s, fun n s => ?_, fun _ => subByte_C1_of_inis_reset⟩
  calc subByte (joinNibbles n n) s.tabIS
    _ = joinNibbles (entryNibble (s.readIS n)) (entryNibble (s.readIS n)) := subByte_joinNibbles n n s.tabIS
    _ = joinNibbles (s.readIS n) (s.readIS n) := by rw [entryNibble_nibble]

end Sys2Proof.Machine

/-! `PermByte` (R70) as a shift and mask for each output bit. -/

namespace Sys2Proof.Machine

theorem shiftRight_and_one (b : Byte) (n : Nat) : b >>> n &&& 1 = if b.getLsbD n then 1 else 0 := by
  apply BitVec.eq_of_getLsbD_eq
  intro j hj
  cases j with
  | zero => by_cases h : b.getLsbD n <;> simp [h]
  | succ j => by_cases h : b.getLsbD n <;> simp [h]

theorem entryBitPos_toNat {v : Byte} (h : v.toNat < 8) : (entryBitPos v).toNat = v.toNat := by
  revert v
  decide

/-- An entry below 8 is read whole, and its bit, shifted down, masked and shifted up, is the bit gathered. -/
theorem gatherBit_eq_shift {t : Vector Byte 8} (ht : ∀ i : BitPos, (entry8 t i).toNat < 8) (b : Byte) (i : Fin 8) :
    gatherBit b t i = (b >>> (entry8 t (bitPosOfIdx i)).toNat &&& 1) <<< i.val := by
  rw [gatherBit, entryBitPos_toNat (ht _), shiftRight_and_one]
  split
  · rfl
  · exact (BitVec.zero_shiftLeft i.val).symm

theorem permByte_eq_or {ew : Nat} (b : Byte) (t : Vector (BitVec ew) 8) :
    permByte b t = gatherBit b t 0 ||| gatherBit b t 1 ||| gatherBit b t 2 ||| gatherBit b t 3 ||| gatherBit b t 4 |||
      gatherBit b t 5 ||| gatherBit b t 6 ||| gatherBit b t 7 := by
  have hr : List.finRange 8 = [0, 1, 2, 3, 4, 5, 6, 7] := by decide
  simp only [permByte, hr, List.foldl_cons, List.foldl_nil, BitVec.ofNat_eq_ofNat, BitVec.zero_or]

/-- Settles O19: each output bit is one input bit, and an entry below 8 shifts that bit down to bit 0. -/
theorem permByteGathersBits : Obligations.PermByteGathersBits := by
  refine ⟨fun _ t b i => permByte_getLsbD b t i, fun t b ht => ?_⟩
  simp only [permByte_eq_or, gatherBit_eq_shift ht]
  rfl

end Sys2Proof.Machine

/-! A table as a permutation of the bit positions: what `PermByte` does with it (R72 to R75), said once for `P` and `IP`. -/

namespace Sys2Proof.Machine

/-- The table sends each output bit position to the input bit position it gathers from (R70), and this is `σ`. -/
def Gathers {ew : Nat} (t : Vector (BitVec ew) 8) (σ : Equiv.Perm BitPos) : Prop :=
  ∀ i, entryBitPos (entry8 t i) = σ i

theorem permByte_zero {ew : Nat} (t : Vector (BitVec ew) 8) : permByte 0x00 t = 0x00 :=
  byte_ext_bits fun i => (permByte_getLsbD 0 t i).trans (BitVec.getLsbD_zero.trans BitVec.getLsbD_zero.symm)

theorem allOnes_getLsbD (i : BitPos) : (0xFF : Byte).getLsbD i.toNat = true := by
  revert i
  decide

theorem permByte_allOnes {ew : Nat} (t : Vector (BitVec ew) 8) : permByte 0xFF t = 0xFF :=
  byte_ext_bits fun i => by rw [permByte_getLsbD, allOnes_getLsbD, allOnes_getLsbD]

theorem oneBit_getLsbD (k i : BitPos) : (1#8 <<< k.toNat).getLsbD i.toNat = decide (k = i) := by
  revert k i
  decide

/-- The bit positions as the list of indices that `onesCount` counts over. -/
def bitPosEquiv : BitPos ≃ Fin 8 := ⟨idx8, bitPosOfIdx, bitPosOfIdx_idx8, idx8_bitPosOfIdx⟩

theorem onesCount_eq (b : Byte) : onesCount b = (List.finRange 8).countP fun i => b.getLsbD (bitPosEquiv.symm i).toNat :=
  List.countP_congr fun i _ => by rw [← bitPosOfIdx_toNat i]; rfl

section gathers

variable {ew ew' : Nat} {t : Vector (BitVec ew) 8} {t' : Vector (BitVec ew') 8} {σ : Equiv.Perm BitPos}

theorem Gathers.permByte_getLsbD (h : Gathers t σ) (b : Byte) (i : BitPos) :
    (permByte b t).getLsbD i.toNat = b.getLsbD (σ i).toNat := by
  rw [Machine.permByte_getLsbD, h i]

/-- Input bit `k` goes to the one output bit that gathers from it. -/
theorem Gathers.permByte_oneBit (h : Gathers t σ) (k : BitPos) :
    permByte (1#8 <<< k.toNat) t = 1#8 <<< (σ.symm k).toNat := by
  refine byte_ext_bits fun i => ?_
  rw [h.permByte_getLsbD, oneBit_getLsbD, oneBit_getLsbD, decide_eq_decide, Equiv.symm_apply_eq]

/-- The 1 bits of the result are those of the byte, counted in another order (R75). -/
theorem Gathers.onesCount_permByte (h : Gathers t σ) (b : Byte) : onesCount (permByte b t) = onesCount b := by
  have hperm := (bitPosEquiv.permCongr σ).map_finRange_perm.countP_eq fun i => b.getLsbD (bitPosEquiv.symm i).toNat
  rw [onesCount_eq, onesCount_eq, ← hperm, List.countP_map]
  exact List.countP_congr fun i _ => by
    rw [h.permByte_getLsbD, Function.comp_apply, Equiv.permCongr_apply, Equiv.symm_apply_apply]

/-- A table of the inverse permutation brings every bit back (R74). -/
theorem Gathers.leftInverse_permByte (h : Gathers t σ) (h' : Gathers t' σ.symm) :
    Function.LeftInverse (fun b => permByte b t') fun b => permByte b t := fun b =>
  byte_ext_bits fun i => by rw [h'.permByte_getLsbD, h.permByte_getLsbD, Equiv.apply_symm_apply]

end gathers

section readyTables

variable {s : State}

/-- The permutation of a `READY` engine: `P` one way, `IP` the other. -/
def State.PermTablesValid.perm (h : s.PermTablesValid) : Equiv.Perm BitPos where
  toFun i := entryBitPos (s.readP i)
  invFun := s.readIP
  left_inv i := (h i).2
  right_inv j := (congrArg entryBitPos (h.readP_readIP j)).trans (entryBitPos_widen j)

theorem State.PermTablesValid.perm_toNat (h : s.PermTablesValid) (i : BitPos) : (h.perm i).toNat = (s.readP i).toNat :=
  entryBitPos_toNat (h i).1

theorem State.PermTablesValid.gathers_tabP (h : s.PermTablesValid) : Gathers s.tabP h.perm := fun _ => rfl

theorem State.PermTablesValid.gathers_tabIP (h : s.PermTablesValid) : Gathers s.tabIP h.perm.symm :=
  fun _ => entryBitPos_bitPos _

/-- R74: `IP` undoes `P`. -/
theorem State.PermTablesValid.leftInverse_permByte (h : s.PermTablesValid) :
    Function.LeftInverse (fun b => permByte b s.tabIP) fun b => permByte b s.tabP :=
  h.gathers_tabP.leftInverse_permByte h.gathers_tabIP

/-- R74: `P` undoes `IP`. -/
theorem State.PermTablesValid.rightInverse_permByte (h : s.PermTablesValid) :
    Function.RightInverse (fun b => permByte b s.tabIP) fun b => permByte b s.tabP :=
  h.gathers_tabIP.leftInverse_permByte h.gathers_tabP

end readyTables

/-- Settles O51: the two tables of a `READY` engine are a permutation and its inverse, so the two commands and the two
maps undo each other, and no bit is lost. -/
theorem permutationRoundTrip : Obligations.PermutationRoundTrip := by
  intro s hinv hready
  have hvalid := hinv.permTables hready
  have hleft := hvalid.leftInverse_permByte
  have hright := hvalid.rightInverse_permByte
  have hprmf := exec_prmf_of_ready hready
  have hprmi := exec_prmi_of_ready hready
  exact ⟨fun _ _ => exec_undoes_answer hprmf hprmi hleft, fun _ _ => exec_undoes_answer hprmi hprmf hright,
    ⟨hleft.injective, hright.surjective⟩, hvalid.gathers_tabP.onesCount_permByte, fun b => ⟨hleft b, hright b⟩⟩

end Sys2Proof.Machine

/-! `PRMF` and `PRMI` (R72, R73). -/

namespace Sys2Proof.Machine

section commands

variable {s : State}

theorem exec_prmf_of_not_ready (h : s.pState ≠ .ready) (b : Byte) :
    exec (.prmf b) s = .next (s.respond .notReady 0) :=
  whenReady_of_not_ready h s _

theorem exec_prmi_of_not_ready (h : s.pState ≠ .ready) (b : Byte) :
    exec (.prmi b) s = .next (s.respond .notReady 0) :=
  whenReady_of_not_ready h s _

theorem exec_inip_of_ok {inv : Vector (Fin 8) 8} (hu : s.pState = .uninit) (h : invertTable s.tabP = .ok inv) :
    exec .inip s = .next ((s.commitIP inv).respond .ok 0) := by
  rw [exec, execInip, whenUninit_of_uninit hu, h]
  rfl

end commands

/-- R72's example: the byte 0xB3 through the default table. -/
theorem permByte_B3_pReset : permByte 0xB3 Config.thisHardware.pReset = 0x6B := by decide

/-- Settles O25: a word of format B, a command under the check `READY`, and the bits permuted as `P` says. -/
theorem prmfPermutesForward : Obligations.PrmfPermutesForward := by
  refine ⟨cmdWord_zero_index 0x3, fun b _ h => exec_prmf_of_ready h b, fun b _ h => exec_prmf_of_not_ready h b,
    fun _ b s h => executeWord_formatB_index (by decide) h b s, fun s hinv hready => ?_, permByte_B3_pReset⟩
  have hvalid := hinv.permTables hready
  exact ⟨permByte_zero s.tabP, permByte_allOnes s.tabP, hvalid.gathers_tabP.onesCount_permByte,
    hvalid.gathers_tabP.permByte_oneBit, fun i => (hvalid i).1⟩

/-- R73's example: after `INIP`, `IP` undoes the default `P`, and so takes R72's example back. -/
theorem permByte_6B_of_inip_reset {t : State} (h : exec .inip State.reset = .next t) :
    permByte 0x6B t.tabIP = 0xB3 := by
  obtain ⟨inv, hinv⟩ : ∃ inv, invertTable State.reset.tabP = .ok inv := ⟨_, rfl⟩
  obtain rfl := Host.Outcome.next.inj ((exec_inip_of_ok rfl hinv).symm.trans h)
  have hundo : permByte (permByte 0xB3 Config.thisHardware.pReset) (State.reset.commitIP inv).tabIP = 0xB3 :=
    (permTablesValid_commitIP hinv).leftInverse_permByte 0xB3
  rwa [permByte_B3_pReset] at hundo

/-- Settles O26: as for `PRMF`, where a bit goes where the inverse of `IP`, which is `P`, says. -/
theorem prmiPermutesInverse : Obligations.PrmiPermutesInverse := by
  refine ⟨cmdWord_zero_index 0x4, fun b _ h => exec_prmi_of_ready h b, fun b _ h => exec_prmi_of_not_ready h b,
    fun _ b s h => executeWord_formatB_index (by decide) h b s, fun s hinv hready => ?_,
    fun _ => permByte_6B_of_inip_reset⟩
  have hvalid := hinv.permTables hready
  refine ⟨permByte_zero s.tabIP, permByte_allOnes s.tabIP, hvalid.gathers_tabIP.onesCount_permByte, fun k => ?_⟩
  rw [hvalid.gathers_tabIP.permByte_oneBit, Equiv.symm_symm, hvalid.perm_toNat]

end Sys2Proof.Machine

/-! `InvertTable` (R77 to R79). A table's inverse is said once, as `Undoes`; what `InvertTable` answers, and that the
accepted tables are the bijections, is read off it. -/

namespace Sys2Proof.Machine

/-- Every entry of `t` is in range, and `inv` takes it back to its index: what `Ok(inv)` promises (R77). -/
def Undoes {n : Nat} (inv : Vector (Fin n) n) (t : Vector Byte n) : Prop :=
  ∀ i : Fin n, ∃ h : (t.get i).toNat < n, inv.get ⟨(t.get i).toNat, h⟩ = i

/-- A table all of whose entries are in range, on the indices themselves. -/
def narrowTable {n : Nat} (t : Vector Byte n) (hr : ∀ i, (t.get i).toNat < n) : Vector (Fin n) n :=
  Vector.ofFn fun i => ⟨(t.get i).toNat, hr i⟩

section inverse

variable {n : Nat} {t : Vector Byte n} {inv inv' : Vector (Fin n) n} {c c' : Cause} {i j : Fin n}

theorem narrowTable_get (hr : ∀ i, (t.get i).toNat < n) (i : Fin n) :
    (narrowTable t hr).get i = ⟨(t.get i).toNat, hr i⟩ :=
  Vector.get_ofFn _ i

theorem widenTable_get_toNat (hn : n ≤ 256) (inv : Vector (Fin n) n) (j : Fin n) :
    ((widenTable inv).get j).toNat = (inv.get j).val := by
  rw [widenTable, Vector.get_ofFn, BitVec.toNat_ofNat]
  exact Nat.mod_eq_of_lt ((inv.get j).isLt.trans_le hn)

/-! An inverse is one on both sides, since a table is finite. -/

theorem Undoes.get_lt (h : Undoes inv t) (i : Fin n) : (t.get i).toNat < n := (h i).fst

theorem Undoes.leftInverse (h : Undoes inv t) : Function.LeftInverse inv.get (narrowTable t h.get_lt).get := fun i => by
  rw [narrowTable_get]
  exact (h i).snd

theorem Undoes.rightInverse (h : Undoes inv t) : Function.RightInverse inv.get (narrowTable t h.get_lt).get :=
  h.leftInverse.rightInverse_of_surjective (Finite.injective_iff_surjective.1 h.leftInverse.injective)

theorem Undoes.get_get (h : Undoes inv t) (j : Fin n) : (t.get (inv.get j)).toNat = j.val := by
  have hj := h.rightInverse j
  rw [narrowTable_get] at hj
  exact congrArg Fin.val hj

/-- An index is where the inverse says its entry's value stands. -/
theorem Undoes.eq_get (h : Undoes inv t) {v : Fin n} (hi : (t.get i).toNat = v.val) : i = inv.get v := by
  obtain ⟨hr, hinv⟩ := h i
  rw [← hinv]
  exact congrArg inv.get (Fin.ext hi)

theorem Undoes.unique (h : Undoes inv t) (h' : Undoes inv' t) : inv = inv' :=
  Vector.ext fun k hk => h'.eq_get (h.get_get ⟨k, hk⟩)

theorem Undoes.isBijection (h : Undoes inv t) : IsBijection t := fun v =>
  ⟨inv.get v, h.get_get v, fun _ hj => h.eq_get hj⟩

/-- The index at which each value appears makes an inverse. -/
theorem IsBijection.exists_undoes (h : IsBijection t) : ∃ inv, Undoes inv t := by
  choose f hf _ using h
  have hinj : Function.Injective f := fun v w e => Fin.ext ((hf v).symm.trans (e ▸ hf w))
  refine ⟨Vector.ofFn f, fun i => ?_⟩
  obtain ⟨v, rfl⟩ := Finite.injective_iff_surjective.1 hinj i
  exact ⟨(hf v).trans_lt v.isLt, (Vector.get_ofFn f _).trans (congrArg f (Fin.ext (hf v)))⟩

theorem exists_undoes_iff_isBijection : (∃ inv, Undoes inv t) ↔ IsBijection t :=
  ⟨fun ⟨_, h⟩ => h.isBijection, IsBijection.exists_undoes⟩

/-- Written back as a candidate table, an inverse is undone by the table it came from (R79). -/
theorem Undoes.symm (h : Undoes inv t) (hn : n ≤ 256) : Undoes (narrowTable t h.get_lt) (widenTable inv) := fun j => by
  have hj : ((widenTable inv).get j).toNat = (inv.get j).val := widenTable_get_toNat hn inv j
  refine ⟨hj.trans_lt (inv.get j).isLt, ?_⟩
  exact (congrArg (narrowTable t h.get_lt).get (Fin.ext hj)).trans (h.rightInverse j)

/-! A table has one first offender at most, and none when it has an inverse. -/

theorem FirstOffender.offends (h : FirstOffender t c i) :
    ¬ ((t.get i).toNat < n ∧ ∀ k : Fin n, k < i → t.get k ≠ t.get i) := by
  rintro ⟨hr, hnew⟩
  obtain ⟨-, hbad⟩ := h
  cases c with
  | range => exact absurd hr hbad.not_gt
  | duplicate =>
    obtain ⟨-, k, hk, e⟩ := hbad
    exact hnew k hk e

theorem FirstOffender.le (h : FirstOffender t c i) (h' : FirstOffender t c' j) : i ≤ j :=
  not_lt.1 fun hlt => h'.offends (h.1 j hlt)

theorem FirstOffender.unique (h : FirstOffender t c i) (h' : FirstOffender t c' j) : c = c' ∧ i = j := by
  obtain rfl : i = j := (h.le h').antisymm (h'.le h)
  refine ⟨?_, rfl⟩
  obtain ⟨-, hbad⟩ := h
  obtain ⟨-, hbad'⟩ := h'
  cases c <;> cases c'
  case range.range | duplicate.duplicate => rfl
  case range.duplicate => exact absurd hbad'.1 hbad.not_gt
  case duplicate.range => exact absurd hbad.1 hbad'.not_gt

theorem Undoes.not_firstOffender (h : Undoes inv t) : ¬ FirstOffender t c i := fun hbad =>
  hbad.offends ⟨h.get_lt i, fun _ hk e => hk.ne (h.leftInverse.injective (by simp [narrowTable_get, e]))⟩

/-! The two answers. -/

theorem invertTable_eq_ok_iff : invertTable t = .ok inv ↔ Undoes inv t := by
  refine ⟨inverse_get_of_invertTable_ok, fun h => ?_⟩
  cases hres : invertTable t with
  | ok inv' => rw [h.unique (inverse_get_of_invertTable_ok hres)]
  | err c i v => exact absurd (firstOffender_of_invertTable_err hres).1 h.not_firstOffender

theorem invertTable_eq_err_iff {v : Byte} : invertTable t = .err c i v ↔ FirstOffender t c i ∧ v = t.get i := by
  refine ⟨firstOffender_of_invertTable_err, fun ⟨h, hv⟩ => ?_⟩
  cases hres : invertTable t with
  | ok inv => exact absurd h (Undoes.not_firstOffender (inverse_get_of_invertTable_ok hres))
  | err c' i' v' =>
    obtain ⟨h', hv'⟩ := firstOffender_of_invertTable_err hres
    obtain ⟨rfl, rfl⟩ := h.unique h'
    rw [hv, hv']

theorem exists_invertTable_eq_ok_iff : (∃ inv, invertTable t = .ok inv) ↔ IsBijection t :=
  (exists_congr fun _ => invertTable_eq_ok_iff).trans exists_undoes_iff_isBijection

end inverse

/-- Settles O20: the scan answers one or the other, and a table has one inverse or one first offender, never both. -/
theorem invertTableReportsFirstOffender : Obligations.InvertTableReportsFirstOffender :=
  ⟨fun _ _ _ _ _ => invertTable_eq_err_iff, fun _ _ _ => invertTable_eq_ok_iff⟩

/-- Settles O21: the accepted tables are those with an inverse, which are the bijections. -/
theorem invertTableAcceptsExactlyBijections : Obligations.InvertTableAcceptsExactlyBijections :=
  fun _ _ => exists_invertTable_eq_ok_iff

/-- Settles O22: the inverse is one on both sides, so the table, narrowed, undoes it. -/
theorem doubleInverseIsTheTable : Obligations.DoubleInverseIsTheTable := by
  intro n t inv hn hok
  have h : Undoes inv t := invertTable_eq_ok_iff.1 hok
  have hback : Undoes (narrowTable t h.get_lt) (widenTable inv) := h.symm hn
  exact ⟨h, h.get_get, hback.isBijection, _, invertTable_eq_ok_iff.2 hback,
    fun i => congrArg Fin.val (narrowTable_get h.get_lt i)⟩

end Sys2Proof.Machine

/-! What `INIS`, `INIP`, `WRS` and `WRP` do in each state of their engine (R82, R84, R88, R89), and their frames. -/

namespace Sys2Proof.Machine

section commands

variable {s : State}

theorem exec_inis_of_not_uninit (h : s.sState ≠ .uninit) : exec .inis s = .next (s.respond .locked 0) :=
  whenUninit_of_not_uninit h s _

theorem exec_inip_of_not_uninit (h : s.pState ≠ .uninit) : exec .inip s = .next (s.respond .locked 0) :=
  whenUninit_of_not_uninit h s _

theorem exec_wrs_of_not_uninit (h : s.sState ≠ .uninit) (i : Nibble) (v : Byte) :
    exec (.wrs i v) s = .next (s.respond .locked 0) :=
  whenUninit_of_not_uninit h s _

theorem exec_wrp_of_not_uninit (h : s.pState ≠ .uninit) (i : BitPos) (v : Byte) :
    exec (.wrp i v) s = .next (s.respond .locked 0) :=
  whenUninit_of_not_uninit h s _

theorem exec_rdis_of_not_ready (h : s.sState ≠ .ready) (i : Nibble) :
    exec (.rdis i) s = .next (s.respond .notReady 0) :=
  whenReady_of_not_ready h s _

theorem exec_inis_of_err {c : Cause} {i : Fin 16} {v : Byte} (hu : s.sState = .uninit)
    (h : invertTable s.tabS = .err c i v) :
    exec .inis s = .next ((s.recordConfigError .substitution (errInfo .substitution c (nibbleOfIdx i)) v).respond
      .configError (errInfo .substitution c (nibbleOfIdx i))) := by
  rw [exec, execInis, whenUninit_of_uninit hu, h]
  rfl

theorem exec_inip_of_err {c : Cause} {i : Fin 8} {v : Byte} (hu : s.pState = .uninit)
    (h : invertTable s.tabP = .err c i v) :
    exec .inip s = .next ((s.recordConfigError .permutation (errInfo .permutation c (nibbleOfIdx i)) v).respond
      .configError (errInfo .permutation c (nibbleOfIdx i))) := by
  rw [exec, execInip, whenUninit_of_uninit hu, h]
  rfl

theorem readS_writeS_other {i j : Nibble} (v : Byte) (h : j ≠ i) : (s.writeS i v).readS j = s.readS j :=
  entry16_setEntry16_other s.tabS v h

theorem readP_writeP_other {i j : BitPos} (v : Byte) (h : j ≠ i) : (s.writeP i v).readP j = s.readP j :=
  entry8_setEntry8_other s.tabP v h

/-- No command changes the events still to come. -/
theorem exec_inputs {i : Instr} {t : State} (h : exec i s = .next t) : t.inputs = s.inputs := by
  obtain ⟨u, st, d, he, hf⟩ := exec_effect i s
  cases he.symm.trans h
  exact hf.inputs_eq

end commands

section frames

variable {s t : State}

theorem exec_wrs_frame {i : Nibble} {v : Byte} (h : exec (.wrs i v) s = .next t) :
    t.tabIS = s.tabIS ∧ t.sState = s.sState ∧ t.sErrInfo = s.sErrInfo ∧ t.sErrVal = s.sErrVal ∧
      ∀ j : Nibble, j ≠ i → t.readS j = s.readS j := by
  by_cases hu : s.sState = .uninit
  · cases (exec_wrs_of_uninit hu i v).symm.trans h
    exact ⟨rfl, rfl, rfl, rfl, fun _ => readS_writeS_other v⟩
  · cases (exec_wrs_of_not_uninit hu i v).symm.trans h
    exact ⟨rfl, rfl, rfl, rfl, fun _ _ => rfl⟩

theorem exec_wrp_frame {i : BitPos} {v : Byte} (h : exec (.wrp i v) s = .next t) :
    t.tabIP = s.tabIP ∧ t.pState = s.pState ∧ t.pErrInfo = s.pErrInfo ∧ t.pErrVal = s.pErrVal ∧
      ∀ j : BitPos, j ≠ i → t.readP j = s.readP j := by
  by_cases hu : s.pState = .uninit
  · cases (exec_wrp_of_uninit hu i v).symm.trans h
    exact ⟨rfl, rfl, rfl, rfl, fun _ => readP_writeP_other v⟩
  · cases (exec_wrp_of_not_uninit hu i v).symm.trans h
    exact ⟨rfl, rfl, rfl, rfl, fun _ _ => rfl⟩

theorem exec_inis_frame (h : exec .inis s = .next t) :
    t.tabS = s.tabS ∧ (t.sState ≠ .ready ∨ s.sState = .ready → t.tabIS = s.tabIS) ∧
      (t.sState ≠ .failed ∨ s.sState = .failed → t.sErrInfo = s.sErrInfo ∧ t.sErrVal = s.sErrVal) := by
  by_cases hu : s.sState = .uninit
  case neg =>
    cases (exec_inis_of_not_uninit hu).symm.trans h
    exact ⟨rfl, fun _ => rfl, fun _ => ⟨rfl, rfl⟩⟩
  cases hres : invertTable s.tabS with
  | ok inv =>
    cases (exec_inis_of_ok hu hres).symm.trans h
    exact ⟨rfl, by simp [hu], fun _ => ⟨rfl, rfl⟩⟩
  | err c i v =>
    cases (exec_inis_of_err hu hres).symm.trans h
    exact ⟨rfl, fun _ => rfl, by simp [hu]⟩

theorem exec_inip_frame (h : exec .inip s = .next t) :
    t.tabP = s.tabP ∧ (t.pState ≠ .ready ∨ s.pState = .ready → t.tabIP = s.tabIP) ∧
      (t.pState ≠ .failed ∨ s.pState = .failed → t.pErrInfo = s.pErrInfo ∧ t.pErrVal = s.pErrVal) := by
  by_cases hu : s.pState = .uninit
  case neg =>
    cases (exec_inip_of_not_uninit hu).symm.trans h
    exact ⟨rfl, fun _ => rfl, fun _ => ⟨rfl, rfl⟩⟩
  cases hres : invertTable s.tabP with
  | ok inv =>
    cases (exec_inip_of_ok hu hres).symm.trans h
    exact ⟨rfl, by simp [hu], fun _ => ⟨rfl, rfl⟩⟩
  | err c i v =>
    cases (exec_inip_of_err hu hres).symm.trans h
    exact ⟨rfl, fun _ => rfl, by simp [hu]⟩

end frames

/-- Settles O37: the other engine by independence, the events by `exec_effect`, the rest by the engine's state. -/
theorem writingCommandsFrame : Obligations.WritingCommandsFrame := fun _ _ =>
  ⟨fun _ _ h => ⟨exec_samePerm_of_usesSub rfl h, exec_inputs h, exec_wrs_frame h⟩,
    fun _ _ h => ⟨exec_sameSub_of_usesPerm rfl h, exec_inputs h, exec_wrp_frame h⟩,
    fun h => ⟨exec_samePerm_of_usesSub rfl h, exec_inputs h, exec_inis_frame h⟩,
    fun h => ⟨exec_sameSub_of_usesPerm rfl h, exec_inputs h, exec_inip_frame h⟩⟩

end Sys2Proof.Machine

/-! `INIS` and `INIP` (R82, R84), with the corner tables of their rules. -/

namespace Sys2Proof

theorem reservedWord_of_formatN_operand {op idx : BitVec 4} {d : Byte} (hop : op ∈ [0x7#4, 0x8#4])
    (h : idx ≠ 0 ∨ d ≠ 0) : ReservedWord (cmdWord op idx d) := by
  rw [ReservedWord, Laws.opField_cmdWord, Laws.idxField_cmdWord, Laws.dataField_cmdWord]
  rcases h with hidx | hd
  · exact .inr (.inl ⟨List.mem_append_right [0x1#4, 0x2#4, 0x3#4, 0x4#4] hop, hidx⟩)
  · exact .inr (.inr (.inr (.inl ⟨List.mem_append_left [0x9#4, 0xA#4, 0xB#4, 0xC#4, 0xD#4] hop, hd⟩)))

end Sys2Proof

namespace Sys2Proof.Machine

/-- A format N word with a nonzero operand field is answered `ILLEGAL_CMD` in every state. -/
theorem executeWord_formatN_operand {op idx : BitVec 4} {d : Byte} (hop : op ∈ [0x7#4, 0x8#4]) (h : idx ≠ 0 ∨ d ≠ 0)
    (s : State) : executeWord (cmdWord op idx d) s = .next (s.respond .illegalCmd 0) :=
  executeWord_of_reservedWord (reservedWord_of_formatN_operand hop h) s

theorem isBijection_of_identity {n : Nat} {t : Vector Byte n} (h : ∀ i : Fin n, (t.get i).toNat = i.val) :
    IsBijection t := fun v => ⟨v, h v, fun j hj => Fin.ext ((h j).symm.trans hj)⟩

theorem IsBijection.get_lt {n : Nat} {t : Vector Byte n} (h : IsBijection t) (i : Fin n) : (t.get i).toNat < n :=
  h.exists_undoes.elim fun _ hinv => hinv.get_lt i

theorem entryNibble_toNat {v : Byte} (h : v.toNat < 16) : (entryNibble v).toNat = v.toNat := by
  revert v
  decide

theorem nibbleOfIdx_lt {i j : Fin 16} (h : i < j) : nibbleOfIdx i < nibbleOfIdx j := by
  simpa [BitVec.lt_def] using h

section initialised

variable {s t : State}

/-- `INIS` on a bijection makes the tables mutual inverses and the engine `READY`. -/
theorem exec_inis_of_isBijection (hu : s.sState = .uninit) (hb : IsBijection s.tabS) (h : exec .inis s = .next t) :
    t.sState = .ready ∧ t.tabS = s.tabS ∧ t.SubTablesValid := by
  obtain ⟨inv, hinv⟩ := exists_invertTable_eq_ok_iff.2 hb
  cases (exec_inis_of_ok hu hinv).symm.trans h
  exact ⟨rfl, rfl, (sameSub_respond (s.commitIS inv) .ok 0).tablesValid (subTablesValid_commitIS hinv)⟩

/-- `INIP` on a bijection makes the tables mutual inverses and the engine `READY`. -/
theorem exec_inip_of_isBijection (hu : s.pState = .uninit) (hb : IsBijection s.tabP) (h : exec .inip s = .next t) :
    t.pState = .ready ∧ t.tabP = s.tabP ∧ t.PermTablesValid := by
  obtain ⟨inv, hinv⟩ := exists_invertTable_eq_ok_iff.2 hb
  cases (exec_inip_of_ok hu hinv).symm.trans h
  exact ⟨rfl, rfl, (samePerm_respond (s.commitIP inv) .ok 0).tablesValid (permTablesValid_commitIP hinv)⟩

/-- The inverse of the identity table is the identity. -/
theorem State.SubTablesValid.readIS_of_identity (h : s.SubTablesValid)
    (hid : ∀ i : Nibble, (s.readS i).toNat = i.toNat) (i : Nibble) : s.readIS i = i := by
  have hi : entryNibble (s.readS i) = i := BitVec.eq_of_toNat_eq ((entryNibble_toNat (h i).1).trans (hid i))
  have hundo := (h i).2
  rwa [hi] at hundo

/-- The permutation of the identity table is the identity. -/
theorem State.PermTablesValid.perm_of_identity (h : s.PermTablesValid)
    (hid : ∀ i : BitPos, (s.readP i).toNat = i.toNat) : h.perm = Equiv.refl BitPos :=
  Equiv.ext fun i => BitVec.eq_of_toNat_eq ((h.perm_toNat i).trans (hid i))

theorem Gathers.permByte_refl {ew : Nat} {t : Vector (BitVec ew) 8} (h : Gathers t (Equiv.refl BitPos)) (b : Byte) :
    permByte b t = b :=
  byte_ext_bits (h.permByte_getLsbD b)

/-- A failed engine leaves `FAILED` by no command word (R82). -/
theorem executeWord_sState_of_failed {w : CmdWord} (hf : s.sState = .failed) (h : executeWord w s = .next t) :
    t.sState = .failed := by
  rcases (subChange_of_executeWord h).sState_cases with hsame | ⟨-, hu, -⟩
  · exact hsame.trans hf
  · exact EngineState.noConfusion (hu.symm.trans hf)

end initialised

/-! The corner tables of R82 and R84. -/

section corners

variable {s t : State}

theorem exec_inis_of_identity (hu : s.sState = .uninit) (hid : ∀ i : Nibble, (s.readS i).toNat = i.toNat)
    (h : exec .inis s = .next t) : t.sState = .ready ∧ ∀ i : Nibble, t.readIS i = i := by
  have hb : IsBijection s.tabS := isBijection_of_identity fun i => by
    rw [← readS_nibbleOfIdx, hid, nibbleOfIdx_toNat]
  obtain ⟨hready, htab, hvalid⟩ := exec_inis_of_isBijection hu hb h
  refine ⟨hready, hvalid.readIS_of_identity fun i => ?_⟩
  rw [State.readS, htab]
  exact hid i

theorem exec_inip_of_identity (hu : s.pState = .uninit) (hid : ∀ i : BitPos, (s.readP i).toNat = i.toNat)
    (h : exec .inip s = .next t) :
    (∀ i : BitPos, t.readIP i = i) ∧ ∀ b : Byte, permByte b t.tabP = b ∧ permByte b t.tabIP = b := by
  have hb : IsBijection s.tabP := isBijection_of_identity fun i => by
    rw [← readP_bitPosOfIdx, hid, bitPosOfIdx_toNat]
  obtain ⟨-, htab, hvalid⟩ := exec_inip_of_isBijection hu hb h
  have hperm : hvalid.perm = Equiv.refl BitPos := hvalid.perm_of_identity fun i => by
    rw [State.readP, htab]
    exact hid i
  have hP := hvalid.gathers_tabP
  have hIP := hvalid.gathers_tabIP
  rw [hperm] at hP hIP
  exact ⟨fun i => (entryBitPos_bitPos _).symm.trans (hIP i), fun b => ⟨hP.permByte_refl b, hIP.permByte_refl b⟩⟩

theorem invertTable_of_entry0_range (h : s.readS 0 = 0x10) : invertTable s.tabS = .err .range 0 0x10 := by
  have hr : 16 ≤ (s.readS 0).toNat := by rw [h]; decide
  exact invertTable_eq_err_iff.2 ⟨⟨fun j hj => absurd hj (Fin.not_lt_zero j), hr⟩, h.symm⟩

theorem invertTable_of_last_duplicate
    (hbelow : ∀ i : Nibble, i < 15 → (s.readS i).toNat < 16 ∧ ∀ j : Nibble, j < i → s.readS j ≠ s.readS i)
    (hdup : s.readS 15 = s.readS 14) : invertTable s.tabS = .err .duplicate 15 (s.readS 14) := by
  have hr : (s.readS 15).toNat < 16 := hdup ▸ (hbelow 14 (by decide)).1
  refine invertTable_eq_err_iff.2 ⟨⟨fun j hj => ?_, hr, 14, by decide, hdup.symm⟩, hdup.symm⟩
  obtain ⟨hj16, hnew⟩ := hbelow (nibbleOfIdx j) (nibbleOfIdx_lt hj)
  rw [readS_nibbleOfIdx] at hj16 hnew
  refine ⟨hj16, fun k hk => ?_⟩
  rw [← readS_nibbleOfIdx s k]
  exact hnew _ (nibbleOfIdx_lt hk)

theorem not_isBijection_of_readP {i : BitPos} (h : s.readP i = 0x08 ∨ s.readP i = 0xFF) : ¬ IsBijection s.tabP := by
  intro hb
  have hlt : (s.readP i).toNat < 8 := hb.get_lt (idx8 i)
  rcases h with h | h <;> exact absurd (h ▸ hlt) (by decide)

end corners

/-- Settles O29: a word of format N, a command under the check `UNINIT`, and the two answers of `InvertTable`; the
default table is run. -/
theorem inisValidatesAndDerives : Obligations.InisValidatesAndDerives := by
  refine ⟨rfl, fun _ _ s h => executeWord_formatN_operand (by decide) h s, fun _ h => exec_inis_of_not_uninit h,
    fun s inv hu h => ⟨_, exec_inis_of_ok hu h, rfl, fun j => ?_⟩, fun _ _ _ _ hu h => exec_inis_of_err hu h,
    fun _ _ => exists_invertTable_eq_ok_iff.symm, fun s hf => ?_, fun _ _ => exec_inis_of_identity,
    fun _ => invertTable_of_entry0_range, fun _ => invertTable_of_last_duplicate, ⟨_, rfl, rfl, rfl, rfl⟩⟩
  · exact (congrArg BitVec.toNat (readIS_commitIS s inv j)).trans (nibbleOfIdx_toNat _)
  · have hu : s.sState ≠ .uninit := by simp [hf]
    have hr : s.sState ≠ .ready := by simp [hf]
    exact ⟨exec_wrs_of_not_uninit hu, exec_subf_of_not_ready hr, exec_subi_of_not_ready hr, exec_rdis_of_not_ready hr,
      fun _ _ => executeWord_sState_of_failed hf⟩

/-- Settles O30: as for `INIS`; the identity table is the identity permutation. -/
theorem inipValidatesAndDerives : Obligations.InipValidatesAndDerives := by
  refine ⟨rfl, fun _ _ s h => executeWord_formatN_operand (by decide) h s, fun _ h => exec_inip_of_not_uninit h,
    fun s inv hu h => ⟨_, exec_inip_of_ok hu h, rfl, fun j => ?_⟩, fun _ _ _ _ hu h => exec_inip_of_err hu h,
    fun _ _ => exists_invertTable_eq_ok_iff.symm, fun _ _ => not_isBijection_of_readP,
    fun _ _ => exec_inip_of_identity, rfl, ⟨_, rfl, rfl, rfl, rfl⟩⟩
  exact (congrArg BitVec.toNat (readIP_commitIP s inv j)).trans (bitPosOfIdx_toNat _)

end Sys2Proof.Machine

/-! The words of the table accesses (R50, R53, R62) as numbers, and those of them that are reserved (R59). -/

namespace Sys2Proof

/-- A word whose data field is 0 is its opcode over its index, both shifted. -/
theorem cmdWord_zero_data (op idx : BitVec 4) :
    cmdWord op idx 0 = (op.setWidth 16 <<< 12) ||| (idx.setWidth 16 <<< 8) := by
  rw [← shiftedWord_eq_cmdWord]
  simp [shiftedWord]

theorem setWidth_idxOfBitPos (i : BitPos) : (idxOfBitPos i).setWidth 16 = i.setWidth 16 := by
  revert i
  decide

/-- The index of an 8-entry table fills the index field from below. -/
theorem cmdWord_idxOfBitPos (op : BitVec 4) (i : BitPos) (v : Byte) :
    cmdWord op (idxOfBitPos i) v = (op.setWidth 16 <<< 12) ||| (i.setWidth 16 <<< 8) ||| v.setWidth 16 := by
  rw [← shiftedWord_eq_cmdWord, shiftedWord, setWidth_idxOfBitPos]

theorem cmdWord_idxOfBitPos_zero_data (op : BitVec 4) (i : BitPos) :
    cmdWord op (idxOfBitPos i) 0 = (op.setWidth 16 <<< 12) ||| (i.setWidth 16 <<< 8) := by
  rw [cmdWord_zero_data, setWidth_idxOfBitPos]

section reserved

variable {op idx : BitVec 4} {d : Byte}

theorem reservedWord_of_data (hop : op ∈ [0x7#4, 0x8#4, 0x9#4, 0xA#4, 0xB#4, 0xC#4, 0xD#4]) (hd : d ≠ 0) :
    ReservedWord (cmdWord op idx d) := by
  refine .inr (.inr (.inr (.inl ?_)))
  rw [Laws.opField_cmdWord, Laws.dataField_cmdWord]
  exact ⟨hop, hd⟩

theorem getLsbD_three_of_le (h : 8 ≤ idx.toNat) : idx.getLsbD 3 = true := by
  revert idx
  decide

theorem reservedWord_of_bitPos_index (hop : op ∈ [0x6#4, 0xB#4, 0xC#4]) (hidx : 8 ≤ idx.toNat) :
    ReservedWord (cmdWord op idx d) := by
  refine .inr (.inr (.inl ?_))
  rw [Laws.opField_cmdWord, Laws.idxField_cmdWord]
  exact ⟨hop, getLsbD_three_of_le hidx⟩

theorem reservedWord_of_status_index (hidx : 5 ≤ idx.toNat) : ReservedWord (cmdWord 0xD idx d) := by
  refine .inr (.inr (.inr (.inr ?_)))
  rw [Laws.opField_cmdWord, Laws.idxField_cmdWord]
  exact ⟨rfl, hidx⟩

theorem reservedWord_of_formatR8_operand (hop : op ∈ [0xB#4, 0xC#4]) (h : 8 ≤ idx.toNat ∨ d ≠ 0) :
    ReservedWord (cmdWord op idx d) := by
  rcases h with hidx | hd
  · exact reservedWord_of_bitPos_index (List.mem_cons_of_mem _ hop) hidx
  · refine reservedWord_of_data ?_ hd
    exact List.mem_append_right [0x7#4, 0x8#4, 0x9#4, 0xA#4] (List.mem_append_left [0xD#4] hop)

theorem reservedWord_of_status_operand (h : 5 ≤ idx.toNat ∨ d ≠ 0) : ReservedWord (cmdWord 0xD idx d) :=
  h.elim reservedWord_of_status_index (reservedWord_of_data (by decide))

end reserved

end Sys2Proof

/-! A table with one entry out of range is rejected (R77), at that entry when the entries below it are valid. -/

namespace Sys2Proof.Machine

section outOfRange

variable {n : Nat} {t : Vector Byte n} {i : Fin n} {v : Byte}

theorem exists_invertTable_eq_err_of_le (h : n ≤ (t.get i).toNat) : ∃ c j x, invertTable t = .err c j x := by
  cases hres : invertTable t with
  | ok inv => exact absurd (Undoes.get_lt (invertTable_eq_ok_iff.1 hres) i) (Nat.not_lt.2 h)
  | err c j x => exact ⟨c, j, x, rfl⟩

theorem get_set_same (t : Vector Byte n) (i : Fin n) (v : Byte) : (t.set i.val v i.isLt).get i = v :=
  Vector.getElem_set_self i.isLt

theorem get_set_of_lt {j : Fin n} (h : j < i) : (t.set i.val v i.isLt).get j = t.get j :=
  Vector.getElem_set_ne i.isLt j.isLt (Nat.ne_of_gt h)

theorem exists_invertTable_set_eq_err (hv : n ≤ v.toNat) :
    ∃ c j x, invertTable (t.set i.val v i.isLt) = .err c j x :=
  exists_invertTable_eq_err_of_le (i := i) ((get_set_same t i v).symm ▸ hv)

/-- Writing an entry leaves those below it, so it is the first offender when they are valid. -/
theorem invertTable_set_eq_err_range (hv : n ≤ v.toNat)
    (hbelow : ∀ j : Fin n, j < i → (t.get j).toNat < n ∧ ∀ k : Fin n, k < j → t.get k ≠ t.get j) :
    invertTable (t.set i.val v i.isLt) = .err .range i v := by
  have hsame := get_set_same t i v
  refine invertTable_eq_err_iff.2 ⟨⟨fun j hj => ?_, hsame.symm ▸ hv⟩, hsame.symm⟩
  obtain ⟨hr, hnew⟩ := hbelow j hj
  rw [get_set_of_lt hj]
  refine ⟨hr, fun k hk => ?_⟩
  rw [get_set_of_lt (hk.trans hj)]
  exact hnew k hk

end outOfRange

theorem idx16_surjective : Function.Surjective idx16 := fun i => ⟨nibbleOfIdx i, idx16_nibbleOfIdx i⟩

theorem idx8_surjective : Function.Surjective idx8 := fun i => ⟨bitPosOfIdx i, idx8_bitPosOfIdx i⟩

section writes

variable {s : State}

/-- A value of 16 or more, stored in `S`, is the first offender when the entries below it are valid (R88). -/
theorem invertTable_writeS_eq_err_range {i : Nibble} {v : Byte} (hv : 16 ≤ v.toNat)
    (hbelow : ∀ j : Nibble, j < i → (s.readS j).toNat < 16 ∧ ∀ k : Nibble, k < j → s.readS k ≠ s.readS j) :
    invertTable (s.writeS i v).tabS = .err .range (idx16 i) v :=
  invertTable_set_eq_err_range hv <| idx16_surjective.forall.2 fun j hj =>
    ⟨(hbelow j hj).1, idx16_surjective.forall.2 (hbelow j hj).2⟩

/-- A value of 8 or more, stored in `P`, is the first offender when the entries below it are valid (R89). -/
theorem invertTable_writeP_eq_err_range {i : BitPos} {v : Byte} (hv : 8 ≤ v.toNat)
    (hbelow : ∀ j : BitPos, j < i → (s.readP j).toNat < 8 ∧ ∀ k : BitPos, k < j → s.readP k ≠ s.readP j) :
    invertTable (s.writeP i v).tabP = .err .range (idx8 i) v :=
  invertTable_set_eq_err_range hv <| idx8_surjective.forall.2 fun j hj =>
    ⟨(hbelow j hj).1, idx8_surjective.forall.2 (hbelow j hj).2⟩

end writes

end Sys2Proof.Machine

/-! The table and status accesses (R88, R89, R91 to R94, R96), with the examples of their rules. -/

namespace Sys2Proof.Machine

section commands

variable {s : State}

theorem exec_rdis_of_ready (h : s.sState = .ready) (i : Nibble) :
    exec (.rdis i) s = .next (s.respond .ok (widenNibble (s.readIS i))) :=
  whenReady_of_ready h s _

theorem exec_rdip_of_ready (h : s.pState = .ready) (i : BitPos) :
    exec (.rdip i) s = .next (s.respond .ok (widenBitPos (s.readIP i))) :=
  whenReady_of_ready h s _

theorem exec_rdip_of_not_ready (h : s.pState ≠ .ready) (i : BitPos) :
    exec (.rdip i) s = .next (s.respond .notReady 0) :=
  whenReady_of_not_ready h s _

theorem exec_rdst_of_readStatus {r : Nibble} {v : Byte} (h : s.readStatus r = some v) :
    exec (.rdst r) s = .next (s.respond .ok v) := by
  rw [exec, execRdst, h]
  rfl

theorem executeWord_encode {i : Instr} (hi : i.WellFormed = true) (s : State) : executeWord (encode i) s = exec i s :=
  executeWord_of_command (decode_encode hi) s

end commands

theorem widenNibble_lt (v : Nibble) : (widenNibble v).toNat < 16 := by
  revert v
  decide

theorem widenBitPos_lt (v : BitPos) : (widenBitPos v).toNat < 8 := by
  revert v
  decide

/-- The record of a `FAILED` S engine reads back from the table (R91). -/
theorem State.SubRecordValid.readS_index {s : State} (h : s.SubRecordValid) (hf : s.sState = .failed) :
    s.readS (s.sErrInfo.extractLsb' 0 4) = s.sErrVal := by
  obtain ⟨c, i, hinfo, hval⟩ := h.of_failed hf
  rw [hinfo, errInfo_index, hval]

/-- The record of a `FAILED` P engine reads back from the table (R93). -/
theorem State.PermRecordValid.readP_index {s : State} (h : s.PermRecordValid) (hf : s.pState = .failed) :
    s.readP (s.pErrInfo.extractLsb' 0 3) = s.pErrVal := by
  obtain ⟨c, i, hinfo, hval⟩ := h.of_failed hf
  rw [hinfo, errInfo_bitPos, hval]

theorem statusByte_mem (p s : EngineState) :
    statusByte p s ∈ [0x00#8, 0x01#8, 0x02#8, 0x04#8, 0x05#8, 0x06#8, 0x08#8, 0x09#8, 0x0A#8] := by
  cases p <;> cases s <;> decide

/-! The examples after an initialisation of the default tables (R24). -/

section initialised

variable {t : State}

theorem eq_of_inis_reset (h : exec .inis State.reset = .next t) :
    t = (State.reset.commitIS #v[14, 3, 4, 8, 1, 12, 10, 15, 7, 13, 9, 6, 11, 2, 0, 5]).respond .ok 0 :=
  Host.Outcome.next.inj (h.symm.trans (exec_inis_of_ok rfl rfl))

theorem eq_of_inip_reset (h : exec .inip State.reset = .next t) :
    t = (State.reset.commitIP #v[3, 0, 2, 4, 6, 1, 7, 5]).respond .ok 0 :=
  Host.Outcome.next.inj (h.symm.trans (exec_inip_of_ok rfl rfl))

end initialised

/-- Settles O27: a word of format W16, a command under the check `UNINIT`, and a table with one entry replaced, which
`InvertTable` rejects when the entry is out of range. -/
theorem wrsWritesOneEntry : Obligations.WrsWritesOneEntry := by
  refine ⟨fun i v => (shiftedWord_eq_cmdWord 0x5 i v).symm, fun i v => decode_encode (i := .wrs i v) rfl,
    fun i v s hu => ⟨_, exec_wrs_of_uninit hu i v, rfl, readS_writeS_same s i v, fun _ => readS_writeS_other v,
      fun v' => ⟨_, exec_wrs_of_uninit (s := (s.writeS i v).respond .ok 0) hu i v', readS_writeS_same _ i v'⟩⟩,
    fun i v _ h => exec_wrs_of_not_uninit h i v, fun i v s t hu hv h => ?_, ⟨_, rfl, rfl, rfl⟩, fun t h => ?_⟩
  · cases (exec_wrs_of_uninit hu i v).symm.trans h
    exact ⟨exists_invertTable_set_eq_err hv, invertTable_writeS_eq_err_range hv⟩
  · obtain rfl := eq_of_inis_reset h
    rfl

/-- Settles O28: as for `WRS`, where the words of an index of 8 or more are reserved. -/
theorem wrpWritesOneEntry : Obligations.WrpWritesOneEntry := by
  refine ⟨cmdWord_idxOfBitPos 0x6,
    fun i v s hu => ⟨_, exec_wrp_of_uninit hu i v, rfl, readP_writeP_same s i v, fun _ => readP_writeP_other v⟩,
    fun i v _ h => exec_wrp_of_not_uninit h i v, fun i v s t hu hv h => ?_,
    fun _ _ s h => executeWord_of_reservedWord (reservedWord_of_bitPos_index (by decide) h) s, ⟨_, rfl, rfl, rfl⟩⟩
  cases (exec_wrp_of_uninit hu i v).symm.trans h
  exact ⟨exists_invertTable_set_eq_err hv, invertTable_writeP_eq_err_range hv⟩

/-- Settles O31: a word of format R16, a command that only answers, and the record of a `FAILED` engine, which the
invariant ties to the table. -/
theorem rdsReadsForwardTable : Obligations.RdsReadsForwardTable :=
  ⟨cmdWord_zero_data 0x9, fun i s => exec_rds s i,
    fun _ _ s h => executeWord_of_reservedWord (reservedWord_of_data (by decide) h) s,
    fun _ hinv => hinv.subRecord.readS_index, ⟨_, rfl, rfl, rfl⟩, rfl⟩

/-- Settles O32: a word of format R16 and a command under the check `READY`; an entry of `IS` is a nibble. -/
theorem rdisReadsInverseTable : Obligations.RdisReadsInverseTable := by
  refine ⟨cmdWord_zero_data 0xA, fun i _ h => exec_rdis_of_ready h i, fun i _ h => exec_rdis_of_not_ready h i,
    fun _ _ s h => executeWord_of_reservedWord (reservedWord_of_data (by decide) h) s, widenNibble_lt, fun t h => ?_⟩
  obtain rfl := eq_of_inis_reset h
  rfl

/-- Settles O33: as for `RDS`, in format R8. -/
theorem rdpReadsForwardTable : Obligations.RdpReadsForwardTable :=
  ⟨cmdWord_idxOfBitPos_zero_data 0xB, fun i s => exec_rdp s i,
    fun _ _ s h => executeWord_of_reservedWord (reservedWord_of_formatR8_operand (by decide) h) s,
    fun _ hinv => hinv.permRecord.readP_index, ⟨_, rfl, rfl, rfl⟩, rfl⟩

/-- Settles O34: as for `RDIS`, in format R8; an entry of `IP` has three bits. -/
theorem rdipReadsInverseTable : Obligations.RdipReadsInverseTable := by
  refine ⟨cmdWord_idxOfBitPos_zero_data 0xC, fun i _ h => exec_rdip_of_ready h i,
    fun i _ h => exec_rdip_of_not_ready h i,
    fun _ _ s h => executeWord_of_reservedWord (reservedWord_of_formatR8_operand (by decide) h) s, widenBitPos_lt,
    fun t h => ?_⟩
  obtain rfl := eq_of_inip_reset h
  rfl

/-- After a reset every status register reads zero (R24). -/
theorem readStatus_reset {r : Nibble} (h : r.toNat ≤ 4) : State.reset.readStatus r = some 0 := by
  revert r
  decide

theorem wellFormed_rdst {r : Nibble} (h : r.toNat ≤ 4) : (Instr.rdst r).WellFormed = true := decide_eq_true h

/-- Settles O35: a word of format R16 with an index of 0 to 4, and the five registers, read one by one. -/
theorem rdstReadsStatusRegisters : Obligations.RdstReadsStatusRegisters := by
  refine ⟨cmdWord_zero_data 0xD,
    fun s => ⟨exec_rdst_of_readStatus rfl, exec_rdst_of_readStatus rfl, exec_rdst_of_readStatus rfl,
      exec_rdst_of_readStatus rfl, exec_rdst_of_readStatus rfl⟩,
    fun _ _ s h => executeWord_of_reservedWord (reservedWord_of_status_operand h) s,
    fun r hr => (executeWord_encode (wellFormed_rdst hr) _).trans (exec_rdst_of_readStatus (readStatus_reset hr)),
    fun s => statusByte_mem s.pState s.sState, fun t h => ?_⟩
  obtain rfl := eq_of_inis_reset h
  rfl

end Sys2Proof.Machine

/-! Exceptions (R95, R98, R101, R103): the status a word gets from the order of checks, what a refusal leaves, and where
`CONFIG_ERROR` comes from. -/

namespace Sys2Proof.Machine

/-- The response given last is read off the result, whatever the states it is given in. -/
theorem answer_eq_of_next_respond {a : Result} {u v : State} {st st' : Status} {d d' : Byte}
    (h : a = .next (u.respond st d)) (h' : a = .next (v.respond st' d')) : st = st' ∧ d = d' := by
  have hrsp := congrArg State.responses (Host.Outcome.next.inj (h.symm.trans h'))
  have hlast := (List.append_inj' hrsp rfl).2
  simpa using hlast

/-! The engine-state checks of R95, as `stateRefusal` writes them. -/

section checks

variable {s : State} {e : EngineState} {r : Status}

theorem whenReady_of_refusal (h : (if e = .ready then none else some Status.notReady) = some r) (k : Result) :
    whenReady e s k = .next (s.respond r 0) := by
  split at h
  · cases h
  next he =>
    cases h
    exact whenReady_of_not_ready he s k

theorem whenUninit_of_refusal (h : (if e = .uninit then none else some Status.locked) = some r) (k : Result) :
    whenUninit e s k = .next (s.respond r 0) := by
  split at h
  · cases h
  next he =>
    cases h
    exact whenUninit_of_not_uninit he s k

/-- A command that fails its engine-state check is answered with that refusal. -/
theorem exec_of_stateRefusal {i : Instr} (h : stateRefusal i s = some r) : exec i s = .next (s.respond r 0) := by
  cases i with
  | subf | subi | rdis | prmf | prmi | rdip => exact whenReady_of_refusal h _
  | wrs | inis | wrp | inip => exact whenUninit_of_refusal h _
  | rds | rdp | rdst => cases h

/-- A command that passes its engine-state check, and has no table to validate, is answered `OK`. -/
theorem exec_ok_of_stateRefusal_none {i : Instr} (hi : i.WellFormed = true) (h : stateRefusal i s = none)
    (hs : i ≠ .inis) (hp : i ≠ .inip) : ∃ (u : State) (d : Byte), exec i s = .next (u.respond .ok d) := by
  cases i with
  | subf | subi | rdis | prmf | prmi | rdip =>
    exact ⟨s, _, whenReady_of_ready (by simpa [stateRefusal] using h) s _⟩
  | wrs | wrp => exact ⟨_, _, whenUninit_of_uninit (by simpa [stateRefusal] using h) s _⟩
  | inis => exact absurd rfl hs
  | inip => exact absurd rfl hp
  | rds | rdp => exact ⟨s, _, rfl⟩
  | rdst j =>
    obtain ⟨v, hv⟩ := readStatus_some (s := s) (of_decide_eq_true hi)
    exact ⟨s, v, exec_rdst_of_readStatus hv⟩

end checks

/-- A table that is no bijection is rejected at its first offending entry (R77, R78). -/
theorem exists_firstOffender_of_not_isBijection {n : Nat} {t : Vector Byte n} (h : ¬ IsBijection t) :
    ∃ c i v, invertTable t = .err c i v ∧ FirstOffender t c i := by
  cases hres : invertTable t with
  | ok inv => exact absurd (exists_invertTable_eq_ok_iff.1 ⟨inv, hres⟩) h
  | err c i v => exact ⟨c, i, v, rfl, (invertTable_eq_err_iff.1 hres).1⟩

/-! The third check, which only `INIS` and `INIP` make (R82, R84). -/

section validation

variable {s u : State} {st : Status} {d : Byte}

theorem exec_inis_status (hu : s.sState = .uninit) (h : exec .inis s = .next (u.respond st d)) :
    (IsBijection s.tabS → st = .ok) ∧
      (¬ IsBijection s.tabS → st = .configError ∧
        ∃ k j, FirstOffender s.tabS k j ∧ d = errInfo .substitution k (nibbleOfIdx j)) := by
  refine ⟨fun hb => ?_, fun hb => ?_⟩
  · obtain ⟨inv, hinv⟩ := exists_invertTable_eq_ok_iff.2 hb
    exact (answer_eq_of_next_respond h (exec_inis_of_ok hu hinv)).1
  · obtain ⟨c, i, v, herr, hfirst⟩ := exists_firstOffender_of_not_isBijection hb
    obtain ⟨hst, hd⟩ := answer_eq_of_next_respond h (exec_inis_of_err hu herr)
    exact ⟨hst, c, i, hfirst, hd⟩

theorem exec_inip_status (hu : s.pState = .uninit) (h : exec .inip s = .next (u.respond st d)) :
    (IsBijection s.tabP → st = .ok) ∧
      (¬ IsBijection s.tabP → st = .configError ∧
        ∃ k j, FirstOffender s.tabP k j ∧ d = errInfo .permutation k (nibbleOfIdx j)) := by
  refine ⟨fun hb => ?_, fun hb => ?_⟩
  · obtain ⟨inv, hinv⟩ := exists_invertTable_eq_ok_iff.2 hb
    exact (answer_eq_of_next_respond h (exec_inip_of_ok hu hinv)).1
  · obtain ⟨c, i, v, herr, hfirst⟩ := exists_firstOffender_of_not_isBijection hb
    obtain ⟨hst, hd⟩ := answer_eq_of_next_respond h (exec_inip_of_err hu herr)
    exact ⟨hst, c, i, hfirst, hd⟩

end validation

/-- Settles O14: the one response of a word (`executeWord_effect`) is the one that each check in turn gives. -/
theorem statusFollowsOrderOfChecks : Obligations.StatusFollowsOrderOfChecks := by
  intro w s
  obtain ⟨u, st, d, he, heff⟩ := executeWord_effect w s
  have hexec {i : Instr} (hw : decode w = .command i) : exec i s = .next (u.respond st d) :=
    (executeWord_of_command hw s).symm.trans he
  refine ⟨u, st, d, by rw [he, ← heff.responses_eq]; rfl, fun hw => ?_, fun i hw r hr => ?_,
    fun i hw hr => ⟨?_, ?_, fun hs hp => ?_⟩⟩
  · exact (answer_eq_of_next_respond he (executeWord_of_reservedWord hw s)).1
  · exact (answer_eq_of_next_respond (hexec hw) (exec_of_stateRefusal hr)).1
  · rintro rfl
    exact exec_inis_status (by simpa [stateRefusal] using hr) (hexec hw)
  · rintro rfl
    exact exec_inip_status (by simpa [stateRefusal] using hr) (hexec hw)
  · obtain ⟨v, d', hok⟩ := exec_ok_of_stateRefusal_none (decode_eq_command_iff.1 hw).1 hr hs hp
    exact (answer_eq_of_next_respond (hexec hw) hok).1

/-- A word that answers with one given response does so after an effect with that status and data. -/
theorem executeWord_effect_of_responses {w : CmdWord} {s t : State} {st : Status} {d : Byte}
    (h : executeWord w s = .next t) (hrsp : t.responses = s.responses ++ [⟨st, d⟩]) :
    ∃ u, t = u.respond st d ∧ Effect s u st d := by
  obtain ⟨u, st', d', he, heff⟩ := executeWord_effect w s
  obtain rfl := Host.Outcome.next.inj (h.symm.trans he)
  rw [State.respond_responses, heff.responses_eq] at hrsp
  obtain ⟨rfl, rfl⟩ := Response.mk.inj (List.singleton_inj.1 (List.append_cancel_left hrsp))
  exact ⟨u, rfl, heff⟩

/-- A command that answers neither `OK` nor `CONFIG_ERROR` does nothing else, and answers data 0. -/
theorem Effect.of_refusal {s u : State} {st : Status} {d : Byte} (h : Effect s u st d) (hok : st ≠ .ok)
    (hce : st ≠ .configError) : u = s ∧ d = 0 := by
  cases h with
  | answers _ _ _ hd => exact ⟨rfl, hd hok⟩
  | writesS | writesP | readiesS | readiesP => exact absurd rfl hok
  | failsS | failsP => exact absurd rfl hce

/-- Settles O15: of the effects a word can have, only an answer alone has the status of a refusal. -/
theorem refusalsLeaveNoTrace : Obligations.RefusalsLeaveNoTrace := by
  intro w s t st d h hrsp hst
  obtain ⟨u, rfl, heff⟩ := executeWord_effect_of_responses h hrsp
  obtain ⟨hok, hce⟩ : st ≠ .ok ∧ st ≠ .configError := by
    rcases hst with rfl | rfl | rfl <;> decide
  obtain ⟨rfl, rfl⟩ := heff.of_refusal hok hce
  exact ⟨rfl, rfl⟩

/-! Where `CONFIG_ERROR` comes from (R98). -/

section failures

variable {s t : State}

/-- No run of command words leads out of `FAILED`. -/
theorem runWords_sState_of_failed (hf : s.sState = .failed) {words : List CmdWord} (h : runWords words s = .next t) :
    t.sState = .failed := by
  obtain ⟨u, hu, hsub, -⟩ := runWords_keeps words s
  cases hu.symm.trans h
  exact (hsub (by simp [hf])).sState_eq.trans hf

theorem runWords_pState_of_failed (hf : s.pState = .failed) {words : List CmdWord} (h : runWords words s = .next t) :
    t.pState = .failed := by
  obtain ⟨u, hu, -, hperm⟩ := runWords_keeps words s
  cases hu.symm.trans h
  exact (hperm (by simp [hf])).pState_eq.trans hf

/-- The word that takes the S engine from `UNINIT` to `FAILED` is `INIS`. -/
theorem decode_of_sState_fails {w : CmdWord} (h : executeWord w s = .next t) (hu : s.sState = .uninit)
    (hf : t.sState = .failed) : decode w = .command .inis := by
  rcases (subChange_of_executeWord h).sState_cases with hsame | ⟨hw, -⟩
  · exact EngineState.noConfusion (hf.symm.trans (hsame.trans hu))
  · exact hw

/-- The word that takes the P engine from `UNINIT` to `FAILED` is `INIP`. -/
theorem decode_of_pState_fails {w : CmdWord} (h : executeWord w s = .next t) (hu : s.pState = .uninit)
    (hf : t.pState = .failed) : decode w = .command .inip := by
  rcases (permChange_of_executeWord h).pState_cases with hsame | ⟨hw, -⟩
  · exact EngineState.noConfusion (hf.symm.trans (hsame.trans hu))
  · exact hw

end failures

/-- Settles O46: of the effects a word can have, only the two failures answer `CONFIG_ERROR`, and each moves its engine
as only its initialisation does. -/
theorem configErrorOnlyFromInitialisation : Obligations.ConfigErrorOnlyFromInitialisation := by
  intro w s t d h hrsp
  obtain ⟨u, rfl, heff⟩ := executeWord_effect_of_responses h hrsp
  cases heff with
  | answers _ _ hne => exact absurd rfl hne
  | failsS c i v hu herr =>
    exact .inl ⟨decode_of_sState_fails h hu rfl, hu, rfl, c, i, v, herr, rfl, rfl, rfl,
      fun _ _ => runWords_sState_of_failed rfl⟩
  | failsP c i v hu herr =>
    exact .inr ⟨decode_of_pState_fails h hu rfl, hu, rfl, c, i, v, herr, rfl, rfl, rfl,
      fun _ _ => runWords_pState_of_failed rfl⟩

end Sys2Proof.Machine

/-! Reset, runs of events and runs of commands (R114, R116, R120, R122, R124). -/

namespace Sys2Proof.Machine

section runs

variable {s : State}

/-- A step with an event to come takes it, and gives a response exactly when it is a command word. -/
theorem stepWith_takes_event {e : HostEvent} {rest : List HostEvent} (h : s.inputs = e :: rest) (c : Config) :
    ∃ t, stepWith c s = .next t ∧ t.inputs = rest ∧
      t.responses.length = s.responses.length + if e.isCommand then 1 else 0 := by
  obtain ⟨hcommand, hreset, -⟩ := oneResponsePerCommand c s
  cases e with
  | command w =>
    obtain ⟨t, r, ht, hrsp, hin⟩ := hcommand w rest h
    exact ⟨t, ht, hin, by rw [hrsp]; exact List.length_append⟩
  | reset =>
    obtain ⟨t, ht, hrsp, hin⟩ := hreset rest h
    exact ⟨t, ht, hin, congrArg List.length hrsp⟩

theorem runWith_succ_of_step {c : Config} {k : Nat} {t : State} (h : stepWith c s = .next t) :
    runWith c (k + 1) s = runWith c k t := by
  rw [runWith, h]

/-- From any state, as many steps as there are events take all of them, with a response for each command word. -/
theorem runWith_takes_events (c : Config) {events : List HostEvent} (h : s.inputs = events) :
    ∃ t, runWith c events.length s = .next t ∧ t.inputs = [] ∧
      t.responses.length = s.responses.length + events.countP HostEvent.isCommand := by
  induction events generalizing s with
  | nil => exact ⟨s, rfl, h, rfl⟩
  | cons e rest ih =>
    obtain ⟨u, hu, hin, hlen⟩ := stepWith_takes_event h c
    obtain ⟨t, ht, hdone, hcount⟩ := ih hin
    refine ⟨t, (runWith_succ_of_step hu).trans ht, hdone, ?_⟩
    rw [hcount, hlen, List.countP_cons]
    omega

end runs

/-- Settles O10: a run takes one event at each step (`runWith_takes_events`, by induction on the events), and at reset
no response has been given yet. -/
theorem everyRunEnds : Obligations.EveryRunEnds := by
  intro c events
  have hevents : ({ State.resetWith c with inputs := events } : State).inputs = events := rfl
  obtain ⟨t, ht, hdone, hcount⟩ := runWith_takes_events c hevents
  exact ⟨t, ht, hdone, hcount.trans (Nat.zero_add _)⟩

section initialisation

variable {s t : State}

/-- R81: an `INIS` leaves its engine `READY`, `FAILED`, or as it was when it was one of the two. -/
theorem sState_ne_uninit_of_inis (h : exec .inis s = .next t) : t.sState ≠ .uninit := by
  by_cases hu : s.sState = .uninit
  case neg =>
    cases (exec_inis_of_not_uninit hu).symm.trans h
    exact hu
  cases hres : invertTable s.tabS with
  | ok inv =>
    cases (exec_inis_of_ok hu hres).symm.trans h
    exact EngineState.noConfusion
  | err c i v =>
    cases (exec_inis_of_err hu hres).symm.trans h
    exact EngineState.noConfusion

/-- R81: an `INIP` leaves its engine `READY`, `FAILED`, or as it was when it was one of the two. -/
theorem pState_ne_uninit_of_inip (h : exec .inip s = .next t) : t.pState ≠ .uninit := by
  by_cases hu : s.pState = .uninit
  case neg =>
    cases (exec_inip_of_not_uninit hu).symm.trans h
    exact hu
  cases hres : invertTable s.tabP with
  | ok inv =>
    cases (exec_inip_of_ok hu hres).symm.trans h
    exact EngineState.noConfusion
  | err c i v =>
    cases (exec_inip_of_err hu hres).symm.trans h
    exact EngineState.noConfusion

end initialisation

/-- Settles O47: the first initialisation leaves its engine other than `UNINIT`, and no run of command words changes
such an engine (`runWords_keeps`), so the second one is refused. -/
theorem secondInitialisationIsLocked : Obligations.SecondInitialisationIsLocked := by
  intro s t words
  obtain ⟨u, hu, hsub, hperm⟩ := runWords_keeps words t
  refine ⟨fun h => ⟨u, hu, ?_⟩, fun h => ⟨u, hu, ?_⟩⟩
  · have hne := sState_ne_uninit_of_inis h
    have hsame := (hsub hne).sState_eq
    exact ⟨hsame, exec_inis_of_not_uninit (hsame.trans_ne hne)⟩
  · have hne := pState_ne_uninit_of_inip h
    have hsame := (hperm hne).pState_eq
    exact ⟨hsame, exec_inip_of_not_uninit (hsame.trans_ne hne)⟩

/-- Settles O52: each engine's inverse table undoes its forward table (R67, R74), and left inverses compose in the
reverse order. -/
theorem composedRoundTrip : Obligations.ComposedRoundTrip := by
  intro c s b hreach hs hp
  have hsub := (hreach.inv.subTables hs).leftInverse_subByte
  have hperm := (hreach.inv.permTables hp).leftInverse_permByte
  exact ⟨hperm.comp hsub b, hsub.comp hperm b⟩

/-- Settles O11: a step on a reset event and an edge with `rst` 1 both leave what `applyReset` leaves, which takes
nothing but the host's lists from the state before. -/
theorem resetGivesResetState : Obligations.ResetGivesResetState :=
  ⟨fun c _ _ h => ⟨_, stepWith_reset h c, rfl, rfl, rfl, rfl, rfl, rfl, rfl, rfl, rfl, rfl⟩,
    fun c p _ h => ⟨_, tick_reset c p h, rfl, rfl, rfl, rfl, rfl, rfl, rfl, rfl, rfl, rfl⟩⟩

end Sys2Proof.Machine
